-- ==== Sys2Proof/Word.lean ====
section
/-! DEFINITION. The word types of the block: bytes of a payload (R7), the 32-bit words a command and a
response are made of (R40), and the 64-bit pattern an f64 travels as (R43, R66). -/

namespace Sys2Proof

/-- A payload byte, bit 0 the least significant (R7, R26). -/
abbrev Byte := BitVec 8

/-- One 32-bit word of a command or a response (R40). -/
abbrev Word := BitVec 32

/-- The bit pattern of an f64: sign in bit 63, exponent in 62:52, fraction in 51:0 (R43, R66). -/
abbrev F64 := BitVec 64

end Sys2Proof
end

