-- ==== Sys2Proof/Config.lean ====
section
/-! DEFINITION. The implementation parameters of R6, each at the value this hardware takes, and the one
free value of the model, the bits of a NaN (R66, V1). The descriptor table `DESC` is a parameter too; it stands in
`State` as plain data that no step writes (log entry 1). -/

namespace Sys2Proof

/-- `ROUND_TIES` (R6, R69): what `round` does with a quotient exactly half way between two integers. -/
inductive TieRule where
  /-- the even integer of the two -/
  | halfEven
  /-- the one farther from zero -/
  | halfAway
deriving DecidableEq, Repr

namespace Config

/-- `PAYLOAD_MAX` (R6): the largest payload length in bytes. -/
def payloadMax : Nat := 8

/-- `BITLEN_MAX` (R6): the largest signal bit length. -/
def bitLenMax : Nat := 64

/-- The largest number of pairs one ENCODE can carry: `NSIG` is an 8-bit field (R47). -/
def maxPairs : Nat := 255

/-- `CRC_POLY` (R6, R80): the generator without its `x^15` term. -/
def crcPoly : BitVec 15 := 0x4599#15

/-- `CRC_SEED` (R6, R80). -/
def crcSeed : BitVec 15 := 0#15

/-- `WARN_THRESHOLD` (R6, R90). -/
def warnThreshold : Nat := 128

/-- `BUSOFF_LIMIT` (R6, R90): a counter above this forces BusOff. -/
def busOffLimit : Nat := 255

/-- `RECOVERY_DELAY` (R6, R96), 2 for this hardware. -/
def recoveryDelay : BitVec 16 := 2#16

/-- `TX_FAIL_INC` (R6, R53). -/
def txFailInc : BitVec 16 := 8#16

/-- `RX_FAIL_INC` (R6, R53). -/
def rxFailInc : BitVec 16 := 1#16

/-- `N_NODES` (R6, D18). An abbreviation, so that the literals 0 and 1 name nodes. -/
abbrev nNodes : Nat := 2

/-- `ROUND_TIES` (R6, D15), `half_even` for this hardware. -/
def roundTies : TieRule := .halfEven

/-- FREE VALUE (R66, V1; log entry 2): the sign and the payload bits of the `k`-th NaN a DECODE shows. No body: nothing
can be proved about a value of it, so a statement that holds, holds whatever the hardware's NaN bits are. -/
opaque freeNaN : Nat → BitVec 64

end Config

end Sys2Proof
end

