-- ==== Sys2Proof/Syntax.lean ====
section
/-! DEFINITION. The decoded form of the seven commands (R41), one constructor per row of the opcode table, and the
two pseudo-instructions of R53 as names for ON_FAILURE commands. -/

namespace Sys2Proof

/-- RawFrame (R15). The field `length` of R15 is the number of payload bytes, `RawFrame.length`; bytes at that index
and above do not exist. -/
structure RawFrame where
  id : Word
  extended : Bool
  payload : List Byte
deriving DecidableEq, Repr

/-- `length` of R15. -/
def RawFrame.length (f : RawFrame) : Nat := f.payload.length

/-- A node index `0 .. N_NODES-1` (R25, R42). A `NODE` field at or above `N_NODES` is an illegal command and never
becomes one of these (R49 d). -/
abbrev NodeIx := Fin Config.nNodes

/-- The commands of the block with their decoded operands (R41, R48). -/
inductive Instr where
  /-- DECODE (R60): the frame to decode. -/
  | decode (frame : RawFrame)
  /-- ENCODE (R61): frame id, `ext` bit, and the pairs (signal index, value) in operand order. -/
  | encode (frameId : Word) (ext : Bool) (values : List (Byte × F64))
  /-- CRC_COMPUTE (R81). -/
  | crcCompute (payload : List Byte)
  /-- CRC_CLASSIFY (R82). -/
  | crcClassify (received : List Byte) (receivedCrc : BitVec 15) (expected : List Byte)
  /-- ON_SUCCESS (R92). -/
  | onSuccess (n : NodeIx)
  /-- ON_FAILURE (R93): `increment` is the 16-bit two's-complement operand, read by `BitVec.toInt`. -/
  | onFailure (n : NodeIx) (increment : BitVec 16)
  /-- ON_BUS_OFF_TICK (R96): `elapsed` is unsigned. -/
  | onBusOffTick (n : NodeIx) (elapsed : BitVec 16)
deriving DecidableEq, Repr

/-- `TXFAIL n`, assembler shorthand for `ON_FAILURE n, TX_FAIL_INC` (R53). -/
def Instr.txFail (n : NodeIx) : Instr := .onFailure n Config.txFailInc

/-- `RXFAIL n`, assembler shorthand for `ON_FAILURE n, RX_FAIL_INC` (R53). -/
def Instr.rxFail (n : NodeIx) : Instr := .onFailure n Config.rxFailInc

end Sys2Proof
end

