-- ==== Sys2Proof/WellFormed.lean ====
section
/-! DEFINITION. Which decoded commands a command word sequence can carry: payloads of 0 to 8 bytes (R15, R42 to R46,
R49 c) and at most 255 pairs (R47). The node index is in range by its type. -/

namespace Sys2Proof

/-- A payload has 0 to `PAYLOAD_MAX` bytes (R15, R45). -/
def payloadOk (p : List Byte) : Bool := p.length ≤ Config.payloadMax

/-- The operands of a command are within the ranges of R41. -/
def Instr.wellFormed : Instr → Bool
  | .decode f => payloadOk f.payload
  | .encode _ _ vs => vs.length ≤ Config.maxPairs
  | .crcCompute p => payloadOk p
  | .crcClassify r _ e => payloadOk r && payloadOk e
  | .onSuccess _ => true
  | .onFailure _ _ => true
  | .onBusOffTick _ _ => true

end Sys2Proof
end

