-- ==== Sys2Proof/Decode.lean ====
section
/-! DEFINITION. The transport of commands in 32-bit words (R40 to R49): the opcode map, the packing of payloads and
64-bit values, the decoder, total on any list of words and rejecting by name, and the encoder. -/

namespace Sys2Proof

/-! ## Packing of operands (R43) -/

/-- Byte lane `i` of a payload; a lane at or above the length is 0 when the model writes it (R43 a, R52). -/
def lane (p : List Byte) (i : Nat) : Byte := p.getD i 0#8

/-- `PLO` (R43 a): `PLO[8*i+7 : 8*i] = P[i]` for `i = 0..3`. -/
def payloadLo (p : List Byte) : Word := lane p 3 ++ lane p 2 ++ lane p 1 ++ lane p 0

/-- `PHI` (R43 a): `PHI[8*(i-4)+7 : 8*(i-4)] = P[i]` for `i = 4..7`. -/
def payloadHi (p : List Byte) : Word := lane p 7 ++ lane p 6 ++ lane p 5 ++ lane p 4

/-- The four byte lanes of a word, lane 0 in bits 7:0 (R43 a, R34 c). -/
def lanes (w : Word) : List Byte :=
  [w.extractLsb' 0 8, w.extractLsb' 8 8, w.extractLsb' 16 8, w.extractLsb' 24 8]

/-- The payload two words carry; the lanes at and above the length are not read (R43 a, D31). -/
def unpackPayload (len : Nat) (lo hi : Word) : List Byte := (lanes lo ++ lanes hi).take len

/-- `LO` of a 64-bit value (R43 b). -/
def loWord (v : BitVec 64) : Word := v.extractLsb' 0 32

/-- `HI` of a 64-bit value (R43 b). -/
def hiWord (v : BitVec 64) : Word := v.extractLsb' 32 32

/-! ## The opcode map (R48) -/

/-- The seven opcodes. -/
inductive Opcode where
  | decode | encode | crcCompute | crcClassify | onSuccess | onFailure | onBusOffTick
deriving DecidableEq, Repr

/-- The `OPC` value of each opcode (R48). -/
def Opcode.code : Opcode → Byte
  | .decode => 0x01#8
  | .encode => 0x02#8
  | .crcCompute => 0x10#8
  | .crcClassify => 0x11#8
  | .onSuccess => 0x20#8
  | .onFailure => 0x21#8
  | .onBusOffTick => 0x22#8

/-- The opcode a value of `OPC` names; every other value is reserved (R48, R49 a). -/
def Opcode.ofCode (b : Byte) : Option Opcode :=
  if b = 0x01#8 then some .decode
  else if b = 0x02#8 then some .encode
  else if b = 0x10#8 then some .crcCompute
  else if b = 0x11#8 then some .crcClassify
  else if b = 0x20#8 then some .onSuccess
  else if b = 0x21#8 then some .onFailure
  else if b = 0x22#8 then some .onBusOffTick
  else none

/-- `OPC`, bits 31:24 of the header (R40). -/
def opc (w0 : Word) : Byte := w0.extractLsb' 24 8

/-- `NSIG`, bits 7:0 of an ENCODE header (R47). -/
def nsig (w0 : Word) : Nat := (w0.extractLsb' 0 8).toNat

/-- How many words the command with header `w0` has, known from `w0` alone: the format's number for a known opcode,
one word for a reserved one (R40, R48, R49). -/
def commandLength (w0 : Word) : Nat :=
  match Opcode.ofCode (opc w0) with
  | some .decode => 4
  | some .encode => 2 + 3 * nsig w0
  | some .crcCompute => 3
  | some .crcClassify => 5
  | some .onSuccess => 1
  | some .onFailure => 1
  | some .onBusOffTick => 1
  | none => 1

/-! ## The decoder (R42 to R49) -/

/-- Why a complete command is illegal (R49 a to d). The response does not say which. -/
inductive Illegal where
  /-- R49 (a): `OPC` is none of the seven values. -/
  | reservedOpcode
  /-- R49 (b): a field marked "must be 0" is not 0. -/
  | nonzeroReserved
  /-- R49 (c): `LEN`, `RLEN` or `ELEN` is greater than 8. -/
  | lengthAbove8
  /-- R49 (d): `NODE >= N_NODES`. -/
  | nodeOutOfRange
deriving DecidableEq, Repr

/-- What the words that have arrived are. -/
inductive Decoded where
  /-- Fewer words than the command needs, or none: no command yet (R40, V6). -/
  | incomplete
  /-- A complete malformed command of `consumed` words (R49). -/
  | illegal (why : Illegal) (consumed : Nat)
  /-- A complete legal command of `consumed` words. -/
  | command (i : Instr) (consumed : Nat)
deriving DecidableEq, Repr

/-- Format F (R44). -/
def decodeFormatF (w0 w1 w2 w3 : Word) : Except Illegal Instr :=
  let len := (w0.extractLsb' 0 4).toNat
  if w0.extractLsb' 9 15 ≠ 0#15 ∨ w0.extractLsb' 4 4 ≠ 0#4 then .error .nonzeroReserved
  else if Config.payloadMax < len then .error .lengthAbove8
  else .ok (.decode { id := w1, extended := w0.getLsbD 8, payload := unpackPayload len w2 w3 })

/-- The pairs of format E: three words each, `SIDX`, `VLO`, `VHI` (R47); nothing where bits 31:8 of a `SIDX` word are
not 0. -/
def decodePairs : Nat → List Word → Option (List (Byte × F64))
  | 0, _ => some []
  | n + 1, k :: lo :: hi :: rest =>
    if k.extractLsb' 8 24 = 0#24 then
      (decodePairs n rest).map (fun ps => (k.extractLsb' 0 8, hi ++ lo) :: ps)
    else none
  | _ + 1, _ => none

/-- Format E (R47). -/
def decodeFormatE (w0 w1 : Word) (pairs : List Word) : Except Illegal Instr :=
  if w0.extractLsb' 9 15 ≠ 0#15 then .error .nonzeroReserved
  else
    match decodePairs (nsig w0) pairs with
    | none => .error .nonzeroReserved
    | some vs => .ok (.encode w1 (w0.getLsbD 8) vs)

/-- Format P (R45). -/
def decodeFormatP (w0 w1 w2 : Word) : Except Illegal Instr :=
  let len := (w0.extractLsb' 0 4).toNat
  if w0.extractLsb' 4 20 ≠ 0#20 then .error .nonzeroReserved
  else if Config.payloadMax < len then .error .lengthAbove8
  else .ok (.crcCompute (unpackPayload len w1 w2))

/-- Format C (R46). -/
def decodeFormatC (w0 w1 w2 w3 w4 : Word) : Except Illegal Instr :=
  let elen := (w0.extractLsb' 20 4).toNat
  let rlen := (w0.extractLsb' 16 4).toNat
  if w0.getLsbD 15 then .error .nonzeroReserved
  else if Config.payloadMax < elen ∨ Config.payloadMax < rlen then .error .lengthAbove8
  else .ok (.crcClassify (unpackPayload rlen w1 w2) (w0.extractLsb' 0 15) (unpackPayload elen w3 w4))

/-- `NODE` of format N as a node index, or the command is illegal (R42, R49 d). -/
def nodeField (w0 : Word) : Except Illegal NodeIx :=
  if h : (w0.extractLsb' 16 8).toNat < Config.nNodes then .ok ⟨(w0.extractLsb' 16 8).toNat, h⟩
  else .error .nodeOutOfRange

/-- `IMM` of format N (R42). -/
def imm (w0 : Word) : BitVec 16 := w0.extractLsb' 0 16

/-- Format N with opcode ON_SUCCESS: `IMM` must be 0 (R42). -/
def decodeOnSuccess (w0 : Word) : Except Illegal Instr :=
  if imm w0 ≠ 0#16 then .error .nonzeroReserved
  else
    match nodeField w0 with
    | .ok n => .ok (.onSuccess n)
    | .error e => .error e

/-- Format N with opcode ON_FAILURE (R42). -/
def decodeOnFailure (w0 : Word) : Except Illegal Instr :=
  match nodeField w0 with
  | .ok n => .ok (.onFailure n (imm w0))
  | .error e => .error e

/-- Format N with opcode ON_BUS_OFF_TICK (R42). -/
def decodeOnBusOffTick (w0 : Word) : Except Illegal Instr :=
  match nodeField w0 with
  | .ok n => .ok (.onBusOffTick n (imm w0))
  | .error e => .error e

/-- Word `w(i+1)` of a command whose words after the header are `args`. -/
def arg (args : List Word) (i : Nat) : Word := args.getD i 0#32

/-- A complete command, header and the words after it, as an instruction or the reason it is illegal. -/
def decodeComplete (w0 : Word) (args : List Word) : Except Illegal Instr :=
  match Opcode.ofCode (opc w0) with
  | none => .error .reservedOpcode
  | some .decode => decodeFormatF w0 (arg args 0) (arg args 1) (arg args 2)
  | some .encode => decodeFormatE w0 (arg args 0) (args.drop 1)
  | some .crcCompute => decodeFormatP w0 (arg args 0) (arg args 1)
  | some .crcClassify => decodeFormatC w0 (arg args 0) (arg args 1) (arg args 2) (arg args 3)
  | some .onSuccess => decodeOnSuccess w0
  | some .onFailure => decodeOnFailure w0
  | some .onBusOffTick => decodeOnBusOffTick w0

/-- The command at the head of the words that have arrived. Nothing is read past its last word, and nothing at all is
decided before its last word is there (R40). -/
def decode : List Word → Decoded
  | [] => .incomplete
  | w0 :: args =>
    if args.length + 1 < commandLength w0 then .incomplete
    else
      match decodeComplete w0 (args.take (commandLength w0 - 1)) with
      | .ok i => .command i (commandLength w0)
      | .error e => .illegal e (commandLength w0)

/-! ## The encoder (R42 to R47) -/

/-- A Boolean operand as its one-bit field. -/
def bit (b : Bool) : BitVec 1 := BitVec.ofBool b

/-- A payload length as its four-bit field. -/
def lenField (p : List Byte) : BitVec 4 := BitVec.ofNat 4 p.length

/-- The three words of one pair of format E (R47). -/
def encodePair (kv : Byte × F64) : List Word := [(0#24 ++ kv.1 : BitVec (24 + 8)), loWord kv.2, hiWord kv.2]

/-- Format N (R42). -/
def encodeFormatN (op : Opcode) (n : NodeIx) (i : BitVec 16) : List Word :=
  [(op.code ++ BitVec.ofNat 8 n.val ++ i : BitVec (8 + 8 + 16))]

/-- The words of a well-formed instruction, with 0 in every byte lane a payload does not use (R42 to R47, R52). -/
def encode : Instr → List Word
  | .decode f =>
    [(Opcode.decode.code ++ 0#15 ++ bit f.extended ++ 0#4 ++ lenField f.payload : BitVec (8 + 15 + 1 + 4 + 4)),
      f.id, payloadLo f.payload, payloadHi f.payload]
  | .encode id ext vs =>
    [(Opcode.encode.code ++ 0#15 ++ bit ext ++ BitVec.ofNat 8 vs.length : BitVec (8 + 15 + 1 + 8)), id]
      ++ vs.flatMap encodePair
  | .crcCompute p =>
    [(Opcode.crcCompute.code ++ 0#20 ++ lenField p : BitVec (8 + 20 + 4)), payloadLo p, payloadHi p]
  | .crcClassify r c e =>
    [(Opcode.crcClassify.code ++ lenField e ++ lenField r ++ 0#1 ++ c : BitVec (8 + 4 + 4 + 1 + 15)),
      payloadLo r, payloadHi r, payloadLo e, payloadHi e]
  | .onSuccess n => encodeFormatN .onSuccess n 0#16
  | .onFailure n i => encodeFormatN .onFailure n i
  | .onBusOffTick n t => encodeFormatN .onBusOffTick n t

/-! ## One instruction given as the opcode table numbers its bits -/

/-- The words of the command whose bits are `w`, bit 0 the least significant bit of the first word: as many words as
its header asks for, the bits at and above `nbits` being 0. -/
def tableWords (nbits w : Nat) : List Word :=
  (List.range (commandLength (BitVec.ofNat 32 (w % 2 ^ nbits)))).map
    fun i => BitVec.ofNat 32 ((w % 2 ^ nbits) >>> (32 * i))

/-- The instruction the decoder reads from those words, if it accepts them. -/
def decodeTableWord (nbits w : Nat) : Option Instr :=
  match decode (tableWords nbits w) with
  | .command i _ => some i
  | .illegal _ _ => none
  | .incomplete => none

end Sys2Proof
end

