-- ==== Sys2Proof/Machine/State.lean ====
section
/-! DEFINITION. The state of the block as plain data (R10 to R22), what can stop a step, and the state after reset
(R20, R130). The block has no program counter, no memory and no general register (R4, R19, R25). -/

namespace Sys2Proof.Machine

/-! ## Node registers (R10 to R12) -/

/-- NodeState (R11). ErrorPassive keeps its reserved code and no rule ever writes it (R11, C2). -/
inductive NodeState where
  | errorActive | errorWarning | errorPassive | busOff
deriving DecidableEq, Repr

/-- The three registers of one node and nothing else (R10 to R12). -/
structure NodeRegs where
  /-- `CNT`, the error counter (R10). -/
  cnt : BitVec 16
  /-- `STATE` (R11). -/
  state : NodeState
  /-- `REC`, the recovering flag (R12). -/
  recovering : Bool
deriving DecidableEq, Repr

/-- A node as created: counter 0, ErrorActive, not recovering (R20). -/
def NodeRegs.reset : NodeRegs := { cnt := 0#16, state := .errorActive, recovering := false }

/-! ## The Signal Descriptor Table (R13) -/

/-- `byte_order` (R13). -/
inductive ByteOrder where
  | littleEndian | bigEndian
deriving DecidableEq, Repr

/-- SignalLayout (R13), every field explicit. The signal's name is its position in the entry. -/
structure SignalLayout where
  startBit : BitVec 32
  bitLength : BitVec 32
  byteOrder : ByteOrder
  factor : F64
  offset : F64
  unit : BitVec 32
deriving DecidableEq, Repr

/-- The value of one key of the table: declared length in bytes and the ordered set of layouts (R13). -/
structure Entry where
  dlen : Nat
  signals : List SignalLayout
deriving DecidableEq, Repr

/-- `DESC`: frame id and entry pairs. A finite map, so each id occurs once (`isMap`, Machine/Descriptor.lean). -/
abbrev DescTable := List (Word × Entry)

/-! ## What the host sends (R5, R130, R143) -/

/-- One thing the host does to the block: send the next word of its command stream, or assert the reset input. -/
inductive HostInput where
  | word (w : Word)
  | reset
deriving DecidableEq, Repr

/-! ## The machine -/

/-- The state of the machine. `nodes` is all the state the spec gives the block. `desc` is its configuration, which no
step writes. `inputs` and `responses` are the two ends of the one command stream (R37, R142), and `draws` counts the
free NaN values used so far; these three are the model's own fields (log entries 1 to 3). -/
structure State where
  /-- `node[n]`, `0 <= n < N_NODES` (R10 to R12). -/
  nodes : Vector NodeRegs Config.nNodes
  /-- `DESC` (R13), constant (log entry 1). -/
  desc : DescTable
  /-- What the host has sent and the block has not consumed, oldest first (log entry 3). -/
  inputs : List HostInput
  /-- The responses returned, oldest first, each a list of words (R40, R142; log entry 3). -/
  responses : List (List Word)
  /-- How many free NaN values have been drawn (log entry 2). -/
  draws : Nat
deriving DecidableEq, Repr

/-- What stops the machine with a fault: nothing. "Nothing in the core is allowed to be fatal to the process" (R110), so
the type has no constructor. Safe: no step is lost to it. -/
inductive Fault
deriving DecidableEq, Repr

/-- Why a step has no meaning. -/
inductive Refusal where
  /-- Raised by an arm of `exec` whose instruction has no meaning yet; safe. No arm of this model does. -/
  | notModelled (mnemonic : String)
  /-- Raised by every step of a machine whose `DESC` fails `CheckDescriptor` or gives one id two entries: no such block
  exists (R132, D5, V9); safe. -/
  | configurationError
  /-- Raised by every step of a machine with a node whose registers break the invariant R17, ErrorPassive among them:
  the rules are stated for reachable states only (V3, V4); safe. -/
  | unreachableNodeState
deriving DecidableEq, Repr

/-- The machine right after reset: every node as created (R20), no input, no response. `DESC` is an argument of the
model and reset does not touch it; the table here is the empty one (log entry 1). -/
def State.reset : State :=
  { nodes := Vector.replicate Config.nNodes NodeRegs.reset
    desc := []
    inputs := []
    responses := []
    draws := 0 }

end Sys2Proof.Machine
end

