-- ==== Sys2Proof/Machine/Float.lean ====
section
/-! DEFINITION. The f64 arithmetic of the codec (R66 to R70). A finite f64 is an exact integer multiple of `2^-1074`, so
every operation is computed exactly on integers and narrowed once, by `roundQuot`, to the nearest f64, ties to
even. A NaN has no bits here: it gets them, as a free value, only where its pattern is shown (`toBits`). -/

namespace Sys2Proof.Machine

/-- The value of an f64 (R66). `fin neg mag` is `(-1)^neg * mag * 2^-1074`; zeros keep their sign. -/
inductive FVal where
  | nan
  | inf (neg : Bool)
  | fin (neg : Bool) (mag : Nat)
deriving DecidableEq, Repr

/-- 1.0 in units of `2^-1074`. -/
def fone : Nat := 2 ^ 1074

/-! ## Bit patterns (R66) -/

/-- Sign, bit 63. -/
def F64.sign (b : F64) : Bool := b.getLsbD 63

/-- Exponent field, bits 62:52. -/
def F64.expField (b : F64) : Nat := (b.extractLsb' 52 11).toNat

/-- Fraction field, bits 51:0. -/
def F64.fracField (b : F64) : Nat := (b.extractLsb' 0 52).toNat

/-- The value of a bit pattern (R66): subnormals where the exponent field is 0, infinities and NaNs where it is 2047. -/
def ofBits (b : F64) : FVal :=
  if F64.expField b = 2047 then
    if F64.fracField b = 0 then .inf (F64.sign b) else .nan
  else if F64.expField b = 0 then .fin (F64.sign b) (F64.fracField b)
  else .fin (F64.sign b) ((2 ^ 52 + F64.fracField b) * 2 ^ (F64.expField b - 1))

/-- How many bits above bit 52 a magnitude has: its exponent field is one more, or 0 for a subnormal. -/
def binade (mag : Nat) : Nat := mag.log2 - 52

/-- Bits 62:0 of a finite f64. -/
def finBits (mag : Nat) : Nat := binade mag * 2 ^ 52 + mag / 2 ^ binade mag

/-- A NaN pattern with the sign of `d` and the fraction of `d`, or fraction 1 where that of `d` is 0; every NaN pattern
is one of these. -/
def nanBits (d : BitVec 64) : F64 :=
  let frac := d.extractLsb' 0 52
  (d.extractLsb' 63 1 ++ 2047#11 ++ (if frac = 0#52 then 1#52 else frac) : BitVec (1 + 11 + 52))

/-- The bit pattern of a value; that of a NaN is `d` turned into a NaN pattern, `d` being a free value (R66, V1). -/
def toBits (v : FVal) (d : BitVec 64) : F64 :=
  match v with
  | .nan => nanBits d
  | .inf neg => (bit neg ++ 2047#11 ++ 0#52 : BitVec (1 + 11 + 52))
  | .fin neg mag => (bit neg ++ BitVec.ofNat 63 (finBits mag) : BitVec (1 + 63))

/-! ## Rounding (R67) -/

/-- The integer nearest to `num / den`, ties to even. -/
def nearestEven (num den : Nat) : Nat :=
  let m := num / den
  let r := num % den
  if 2 * r < den ∨ (2 * r = den ∧ m % 2 = 0) then m else m + 1

/-- The first magnitude past the largest finite f64, `2^1024` in units of `2^-1074`. -/
def foverflow : Nat := 2 ^ 2098

/-- `num / den` units of `2^-1074` rounded to 53 significant bits or to the subnormal grid, to nearest, ties to even;
the sign is given. Past the largest finite value it is infinite (R67). -/
def roundQuot (neg : Bool) (num den : Nat) : FVal :=
  let u := 2 ^ binade (num / den)
  let mag := nearestEven num (den * u) * u
  if mag < foverflow then .fin neg mag else .inf neg

/-! ## The four operations (R67) -/

/-- The negation of a value. -/
def fneg : FVal → FVal
  | .nan => .nan
  | .inf s => .inf !s
  | .fin s m => .fin (!s) m

/-- `fadd(a,b)` (R67). An exact zero sum is `+0`, but for `-0 + -0`. -/
def fadd : FVal → FVal → FVal
  | .nan, _ => .nan
  | .inf _, .nan => .nan
  | .inf s, .inf t => if s = t then .inf s else .nan
  | .inf s, .fin _ _ => .inf s
  | .fin _ _, .nan => .nan
  | .fin _ _, .inf t => .inf t
  | .fin s a, .fin t b =>
    if s = t then roundQuot s (a + b) 1
    else if b < a then roundQuot s (a - b) 1
    else if a < b then roundQuot t (b - a) 1
    else .fin false 0

/-- `fsub(a,b)` (R67). -/
def fsub (a b : FVal) : FVal := fadd a (fneg b)

/-- `fmul(a,b)` (R67). -/
def fmul : FVal → FVal → FVal
  | .nan, _ => .nan
  | .inf _, .nan => .nan
  | .inf s, .inf t => .inf (s ^^ t)
  | .inf s, .fin t b => if b = 0 then .nan else .inf (s ^^ t)
  | .fin _ _, .nan => .nan
  | .fin s a, .inf t => if a = 0 then .nan else .inf (s ^^ t)
  | .fin s a, .fin t b => roundQuot (s ^^ t) (a * b) fone

/-- `fdiv(a,b)` (R67). -/
def fdiv : FVal → FVal → FVal
  | .nan, _ => .nan
  | .inf _, .nan => .nan
  | .inf _, .inf _ => .nan
  | .inf s, .fin t _ => .inf (s ^^ t)
  | .fin _ _, .nan => .nan
  | .fin s _, .inf t => .fin (s ^^ t) 0
  | .fin s a, .fin t b =>
    if b = 0 then (if a = 0 then .nan else .inf (s ^^ t))
    else roundQuot (s ^^ t) (a * fone) b

/-! ## Conversions (R68 to R70) -/

/-- `U2F(raw)` (R68). -/
def u2f (raw : Nat) : FVal := roundQuot false (raw * fone) 1

/-- The integer nearest to `num / den`, ties away from zero. -/
def nearestAway (num den : Nat) : Nat :=
  let m := num / den
  if 2 * (num % den) < den then m else m + 1

/-- The integer nearest to `num / den` under a tie rule. -/
def nearest : TieRule → Nat → Nat → Nat
  | .halfEven => nearestEven
  | .halfAway => nearestAway

/-- `RoundInt(q)` (R69): the result is an integer-valued f64 and keeps the sign, so `-0.3` gives `-0`. -/
def roundInt (ties : TieRule) : FVal → FVal
  | .nan => .nan
  | .inf s => .inf s
  | .fin s mag => .fin s (nearest ties mag fone * fone)

/-- `Fits(r, n)` (R70): `r` is a number and `0 <= r <= 2^n - 1`; `-0` is 0 and fits. -/
def fits : FVal → Nat → Bool
  | .nan, _ => false
  | .inf _, _ => false
  | .fin s mag, n => if s then mag = 0 else mag ≤ (2 ^ n - 1) * fone

/-- The integer equal to an integer-valued f64 that fits (R61, R70). -/
def toInteger : FVal → Nat
  | .nan => 0
  | .inf _ => 0
  | .fin _ mag => mag / fone

end Sys2Proof.Machine
end

