-- ==== Sys2Proof/Machine/Descriptor.lean ====
section
/-! DEFINITION. The Signal Descriptor Table: where an integer bit of a payload lives (R28), the payload bits a layout
occupies (R31), `CheckDescriptor` (R14) and `Lookup` (R33). -/

namespace Sys2Proof.Machine

/-- `start_bit` as an integer. -/
def SignalLayout.start (s : SignalLayout) : Nat := s.startBit.toNat

/-- `bit_length` as an integer. -/
def SignalLayout.width (s : SignalLayout) : Nat := s.bitLength.toNat

/-- `ByteIndex(order, L, k)` (R28). -/
def byteIndex (o : ByteOrder) (len k : Nat) : Nat :=
  match o with
  | .littleEndian => k / 8
  | .bigEndian => len - 1 - k / 8

/-- `PhysBit(order, L, k)` (R28). -/
def physBit (o : ByteOrder) (len k : Nat) : Nat := 8 * byteIndex o len k + k % 8

/-- `PhysBits(order, L, s, n)` (R31). -/
def physBits (o : ByteOrder) (len s n : Nat) : List Nat := (List.range n).map fun j => physBit o len (s + j)

/-- The payload bits a layout occupies in a frame of the entry's declared length (R31). -/
def SignalLayout.occupies (dlen : Nat) (s : SignalLayout) : List Nat :=
  physBits s.byteOrder dlen s.start s.width

/-- A layout lies wholly inside `len` bytes; the sum is formed without wrap-around (R14 condition 3, R60, R71). -/
def SignalLayout.fitsIn (len : Nat) (s : SignalLayout) : Bool := s.start + s.width ≤ 8 * len

/-- Conditions 2 and 3 of R14 for one layout. -/
def SignalLayout.ok (dlen : Nat) (s : SignalLayout) : Bool :=
  1 ≤ s.width && s.width ≤ Config.bitLenMax && s.fitsIn dlen

/-- No number is in both lists. -/
def disjointBits (a b : List Nat) : Bool := a.all fun k => !b.contains k

/-- Condition 4 of R14 for a list of layouts: every two different ones occupy disjoint payload bits. -/
def noOverlap (dlen : Nat) : List SignalLayout → Bool
  | [] => true
  | s :: rest => rest.all (fun t => disjointBits (s.occupies dlen) (t.occupies dlen)) && noOverlap dlen rest

/-- The four conditions of R14 for one entry. -/
def Entry.ok (e : Entry) : Bool :=
  e.dlen ≤ Config.payloadMax && e.signals.all (SignalLayout.ok e.dlen) && noOverlap e.dlen e.signals

/-- The result of `CheckDescriptor` (R14). -/
inductive CheckResult where
  | ok | configurationError
deriving DecidableEq, Repr

/-- `CheckDescriptor(DESC)` (R14). `factor`, `offset`, `unit` and the ids are not looked at. -/
def checkDescriptor (d : DescTable) : CheckResult :=
  if d.all (fun kv => kv.2.ok) then .ok else .configurationError

/-- The list of pairs is a map: each key occurs once (R13). -/
def isMap (d : DescTable) : Bool := (d.map Prod.fst).Nodup

/-- `DESC` is a table a block can be constructed from (R13, R14, R132). -/
def tableOk (d : DescTable) : Bool := isMap d && checkDescriptor d = .ok

/-- `Lookup(DESC, id)`: the entry whose key equals the 32-bit id, `extended` taking no part (R33). -/
def lookup (d : DescTable) (id : Word) : Option Entry := (d.find? fun kv => kv.1 = id).map Prod.snd

/-- Construction (R115, R132): a block as reset leaves it over the table it is given, or ConfigurationError, which
refuses to construct. -/
def construct (d : DescTable) : Except CheckResult State :=
  if tableOk d then .ok { State.reset with desc := d } else .error .configurationError

end Sys2Proof.Machine
end

