-- ==== Sys2Proof/Machine/Flags.lean ====
section
/-! DEFINITION. The status label of a counter (R90), the codes of `STATE` (R11), and the relation of the three
registers of a node (R17). -/

namespace Sys2Proof.Machine

/-- The code of a node state in a response (R11). -/
def NodeState.code : NodeState → BitVec 2
  | .errorActive => 0#2
  | .errorWarning => 1#2
  | .errorPassive => 2#2
  | .busOff => 3#2

/-- `Label(c)` (R90). -/
def label (c : Nat) : NodeState :=
  if c < Config.warnThreshold then .errorActive
  else if c ≤ Config.busOffLimit then .errorWarning
  else .busOff

/-- The invariant of the node registers (R17): `STATE` and `REC` are the functions of `CNT` that R17 gives. -/
def NodeRegs.ok (r : NodeRegs) : Bool :=
  r.state = label r.cnt.toNat && r.recovering = decide (r.state = .busOff)

end Sys2Proof.Machine
end

