-- ==== Sys2Proof/Machine/Operands.lean ====
section
/-! DEFINITION. The forms results leave the block in (R50, R51): result codes, the response of each command, and its
words. The forms operands arrive in are in Sys2Proof/Decode.lean. -/

namespace Sys2Proof.Machine

/-- The result codes (R50, R111). ConfigurationError never stands in a response. -/
inductive ResultCode where
  | ok | configurationError | unknownFrameId | truncatedPayload | unknownSignal | valueOutOfRange | invalidIncrement
  | illegal
deriving DecidableEq, Repr

/-- `RC` (R50). -/
def ResultCode.code : ResultCode → Byte
  | .ok => 0x00#8
  | .configurationError => 0x01#8
  | .unknownFrameId => 0x10#8
  | .truncatedPayload => 0x11#8
  | .unknownSignal => 0x20#8
  | .valueOutOfRange => 0x21#8
  | .invalidIncrement => 0x30#8
  | .illegal => 0xFF#8

/-- The classes of CRC_CLASSIFY (R82). -/
inductive CrcClass where
  | ok | crcError | bitError
deriving DecidableEq, Repr

/-- `CLASS` (R51); 3 never occurs. -/
def CrcClass.code : CrcClass → BitVec 2
  | .ok => 0#2
  | .crcError => 1#2
  | .bitError => 2#2

/-- The code of a byte order (R13, D20). -/
def ByteOrder.code : ByteOrder → BitVec 1
  | .littleEndian => 0#1
  | .bigEndian => 1#1

/-- DecodedSignal (R16); its name is its position in the response. -/
structure DecodedSignal where
  raw : BitVec 64
  physical : F64
  unit : BitVec 32
deriving DecidableEq, Repr

/-- What a command answers with. -/
inductive Response where
  /-- DECODE, OK. -/
  | decoded (signals : List DecodedSignal)
  /-- ENCODE, OK. -/
  | frame (f : RawFrame)
  /-- CRC_COMPUTE. -/
  | crc (c : BitVec 15)
  /-- CRC_CLASSIFY. -/
  | crcClass (c : CrcClass)
  /-- The node commands, with OK or InvalidIncrement: event valid, bus-off entered, and the node's registers. -/
  | node (rc : ResultCode) (ev bo : Bool) (r : NodeRegs)
  /-- Every other error: the code and no data (R112, D32). -/
  | error (rc : ResultCode)
deriving DecidableEq, Repr

/-- The five words of one decoded signal (R51). -/
def signalWords (d : DecodedSignal) : List Word :=
  [loWord d.raw, hiWord d.raw, loWord d.physical, hiWord d.physical, d.unit]

/-- The words of a response (R51); bits of the header that R51 does not name are 0. -/
def Response.words : Response → List Word
  | .decoded sigs => (ResultCode.ok.code ++ 0#16 ++ BitVec.ofNat 8 sigs.length : BitVec (8 + 16 + 8)) :: sigs.flatMap signalWords
  | .frame f =>
    [(ResultCode.ok.code ++ 0#15 ++ bit f.extended ++ 0#4 ++ lenField f.payload : BitVec (8 + 15 + 1 + 4 + 4)),
      f.id, payloadLo f.payload, payloadHi f.payload]
  | .crc c => [(ResultCode.ok.code ++ 0#9 ++ c : BitVec (8 + 9 + 15))]
  | .crcClass c => [(ResultCode.ok.code ++ 0#22 ++ c.code : BitVec (8 + 22 + 2))]
  | .node rc ev bo r =>
    [(rc.code ++ bit ev ++ bit bo ++ bit r.recovering ++ 0#3 ++ r.state.code ++ r.cnt : BitVec (8 + 1 + 1 + 1 + 3 + 2 + 16))]
  | .error rc => [(rc.code ++ 0#24 : BitVec (8 + 24))]

end Sys2Proof.Machine
end

