-- ==== Sys2Proof/Machine/Ops.lean ====
section
/-! DEFINITION. The operations every command is made of: the payload as an integer and the bit-field read and write
(R27 to R30), node register read and write, returning a response, ending with an error (R110, R112), the check that
a block exists (R132, V4), the ILLEGAL result (R49), and the reset input (R130). -/

namespace Sys2Proof.Machine

/-- The outcome of a step. -/
abbrev Result := Host.Outcome State Fault Refusal

/-! ## The payload bit space (R25 to R30) -/

/-- The bytes of a payload as one integer, the first the least significant (R27, little-endian). -/
def leInt : List Byte → Nat
  | [] => 0
  | b :: rest => b.toNat + 256 * leInt rest

/-- `PayloadInt(order, P, L)` with `L` the number of bytes of `P` (R27): big-endian reverses byte significance. -/
def payloadInt (o : ByteOrder) (p : List Byte) : Nat :=
  match o with
  | .littleEndian => leInt p
  | .bigEndian => leInt p.reverse

/-- The `len` bytes of an integer, the least significant first (R27). -/
def leBytes (v len : Nat) : List Byte := (List.range len).map fun i => BitVec.ofNat 8 (v >>> (8 * i))

/-- `PayloadBytes(order, V, L)` (R27). -/
def payloadBytes (o : ByteOrder) (v len : Nat) : List Byte :=
  match o with
  | .littleEndian => leBytes v len
  | .bigEndian => (leBytes v len).reverse

/-- The value whose low `n` bits are 1, `(1 << n) - 1` as an integer (R29). -/
def onesMask (n : Nat) : Nat := (1 <<< n) - 1

/-- `Extract(order, P, L, s, n)` (R29). -/
def extractField (o : ByteOrder) (p : List Byte) (s n : Nat) : Nat := (payloadInt o p >>> s) &&& onesMask n

/-- `Insert(order, P, L, s, n, v)` (R30); the complement is taken within `8*L` bits. -/
def insertField (o : ByteOrder) (p : List Byte) (s n v : Nat) : List Byte :=
  let m := onesMask n <<< s
  payloadBytes o ((payloadInt o p &&& (onesMask (8 * p.length) ^^^ m)) ||| (v <<< s)) p.length

/-! ## Node registers (R8, R21) -/

/-- Read `node[n]`. -/
def State.node (s : State) (n : NodeIx) : NodeRegs := s.nodes[n.val]

/-- Write `node[n]`. -/
def State.setNode (s : State) (n : NodeIx) (r : NodeRegs) : State := { s with nodes := s.nodes.set n.val r }

/-! ## Responses and errors (R40, R110, R112) -/

/-- Return a response: one per command, in command order (R40). -/
def State.respond (s : State) (r : Response) : State := { s with responses := s.responses ++ [r.words] }

/-- Count `k` free NaN values as drawn (log entry 2). -/
def State.draw (s : State) (k : Nat) : State := { s with draws := s.draws + k }

/-- `raise E` (R8, R110, R112), the block's whole exception: the response is the result code alone and nothing else
changes. There is no vector, no saved state and nothing to return from (R113), so this is also the return. -/
def raise (rc : ResultCode) (s : State) : Result := .next (s.respond (.error rc))

/-! ## Does the block exist? (R132, V3, V4, V9) -/

/-- The state of a block that exists: its table passes the check, and its node registers are reachable ones. -/
def State.valid (s : State) : Bool := tableOk s.desc && s.nodes.toList.all NodeRegs.ok

/-- A step of a block that exists; under a failing table or an unreachable register state there is no meaning. -/
def onBlock (s : State) (body : Result) : Result :=
  if tableOk s.desc then
    if s.nodes.toList.all NodeRegs.ok then body else .refused .unreachableNodeState
  else .refused .configurationError

/-- An illegal command: response `0xFF000000`, no state change, no event (R49). -/
def execIllegal (s : State) : Result := onBlock s (raise .illegal s)

/-- A command of a block that exists. Operands the words of a command cannot carry (a payload above 8 bytes) make it
illegal before anything else is looked at (R49 c, R114). -/
def obey (i : Instr) (s : State) (body : Result) : Result :=
  onBlock s (if i.wellFormed then body else raise .illegal s)

/-! ## The reset input (R130, R131) -/

/-- Every node as created, at once; `DESC` is not touched, no event and no response (R130, R131). -/
def State.resetNodes (s : State) : State := { s with nodes := Vector.replicate Config.nNodes NodeRegs.reset }

/-! ## The command stream (R37, R40) -/

/-- The words of the stream up to the next reset. -/
def leadingWords : List HostInput → List Word
  | .word w :: rest => w :: leadingWords rest
  | .reset :: _ => []
  | [] => []

/-- The stream from the next reset on. -/
def afterWords : List HostInput → List HostInput
  | .word _ :: rest => afterWords rest
  | .reset :: rest => .reset :: rest
  | [] => []

/-- Drop the `k` words of a command that has been taken. -/
def State.consume (s : State) (k : Nat) : State := { s with inputs := s.inputs.drop k }

/-- No complete command stands before the next reset (R40, R130, V6): the reset takes place and the words of the
incomplete command before it are lost without effect; or, with no reset, the block waits and nothing changes. -/
def waitOrReset (s : State) : Result :=
  onBlock s
    (match afterWords s.inputs with
    | .reset :: rest => .next { s.resetNodes with inputs := rest }
    | .word _ :: _ => .next s
    | [] => .next s)

end Sys2Proof.Machine
end

