-- ==== Sys2Proof/Machine/Codec.lean ====
section
/-! DEFINITION. The Frame Codec: scaling (R62, R63), DECODE (R60) and ENCODE (R61). -/

namespace Sys2Proof.Machine

/-! ## Scaling (R62, R63) -/

/-- `Phys(raw, s)` (R62): two roundings, the product first, no fused multiply-add. -/
def phys (raw : Nat) (s : SignalLayout) : FVal := fadd (fmul (u2f raw) (ofBits s.factor)) (ofBits s.offset)

/-- `r` of R63 under a tie rule: `RoundInt((v - offset) / factor)`. -/
def scaled (ties : TieRule) (v : F64) (s : SignalLayout) : FVal :=
  roundInt ties (fdiv (fsub (ofBits v) (ofBits s.offset)) (ofBits s.factor))

/-- The raw integer of a value, if it fits the signal's field (R61, R63, R70). -/
def rawOf (ties : TieRule) (v : F64) (s : SignalLayout) : Option Nat :=
  if fits (scaled ties v s) s.width then some (toInteger (scaled ties v s)) else none

/-! ## DECODE (R60) -/

/-- `raw_i` of R60. -/
def rawField (p : List Byte) (s : SignalLayout) : Nat := extractField s.byteOrder p s.start s.width

/-- One DecodedSignal (R16, R60); `k` numbers the free NaN value it would show. -/
def decodeSignal (p : List Byte) (s : SignalLayout) (k : Nat) : DecodedSignal :=
  { raw := BitVec.ofNat 64 (rawField p s)
    physical := toBits (phys (rawField p s) s) (Config.freeNaN k)
    unit := s.unit }

/-- The signals of an entry in descriptor order, the free NaN values numbered from `k`. -/
def decodeSignals (p : List Byte) : List SignalLayout → Nat → List DecodedSignal
  | [], _ => []
  | s :: rest, k => decodeSignal p s k :: decodeSignals p rest (k + 1)

/-- DECODE (R60): UnknownFrameId, then TruncatedPayload, then every signal of the entry. `extended` is not read. -/
def execDecode (frame : RawFrame) (s : State) : Result :=
  obey (.decode frame) s
    (match lookup s.desc frame.id with
    | none => raise .unknownFrameId s
    | some e =>
      if e.signals.all (SignalLayout.fitsIn frame.length) then
        .next ((s.respond (.decoded (decodeSignals frame.payload e.signals s.draws))).draw e.signals.length)
      else raise .truncatedPayload s)

/-! ## ENCODE (R61) -/

/-- The pairs in operand order, each checked and written in turn; the first failing pair decides (R61, D10). -/
def encodePairs (ties : TieRule) (e : Entry) : List (Byte × F64) → List Byte → Except ResultCode (List Byte)
  | [], p => .ok p
  | (k, v) :: rest, p =>
    match e.signals[k.toNat]? with
    | none => .error .unknownSignal
    | some s =>
      match rawOf ties v s with
      | none => .error .valueOutOfRange
      | some raw => encodePairs ties e rest (insertField s.byteOrder p s.start s.width raw)

/-- ENCODE (R61): an all-zero payload of the declared length, then the pairs. -/
def execEncode (frameId : Word) (ext : Bool) (values : List (Byte × F64)) (s : State) : Result :=
  obey (.encode frameId ext values) s
    (match lookup s.desc frameId with
    | none => raise .unknownFrameId s
    | some e =>
      match encodePairs Config.roundTies e values (List.replicate e.dlen 0#8) with
      | .error rc => raise rc s
      | .ok p => .next (s.respond (.frame { id := frameId, extended := ext, payload := p })))

end Sys2Proof.Machine
end

