-- ==== Sys2Proof/Machine/Crc.lean ====
section
/-! DEFINITION. The CRC-15 Validator: the CRC (R80), CRC_COMPUTE (R81) and CRC_CLASSIFY (R82). The shift register is a
working value of one command and no state (R18). -/

namespace Sys2Proof.Machine

/-- One input bit into the 15-bit shift register (R80). -/
def crcStep (reg : BitVec 15) (input : Bool) : BitVec 15 :=
  let shifted := reg <<< 1
  if input ^^ reg.getLsbD 14 then shifted ^^^ Config.crcPoly else shifted

/-- The bits of a byte in the order the CRC takes them, bit 7 first (R34 b, R80). -/
def bitsMsbFirst (b : Byte) : List Bool :=
  [b.getLsbD 7, b.getLsbD 6, b.getLsbD 5, b.getLsbD 4, b.getLsbD 3, b.getLsbD 2, b.getLsbD 1, b.getLsbD 0]

/-- The register after one more byte. -/
def crcByte (reg : BitVec 15) (b : Byte) : BitVec 15 := (bitsMsbFirst b).foldl crcStep reg

/-- `Crc15(P, L)` (R80): bytes in index order, from the seed. -/
def crc15 (p : List Byte) : BitVec 15 := p.foldl crcByte Config.crcSeed

/-- The class of a received payload and CRC (R82): the CRC test first, then the payloads, which are equal when they have
the same length and the same bytes. -/
def classify (received : List Byte) (receivedCrc : BitVec 15) (expected : List Byte) : CrcClass :=
  if crc15 received = receivedCrc then .ok
  else if received ≠ expected then .bitError
  else .crcError

/-- CRC_COMPUTE (R81). -/
def execCrcCompute (payload : List Byte) (s : State) : Result :=
  obey (.crcCompute payload) s (.next (s.respond (.crc (crc15 payload))))

/-- CRC_CLASSIFY (R82). -/
def execCrcClassify (received : List Byte) (receivedCrc : BitVec 15) (expected : List Byte) (s : State) : Result :=
  obey (.crcClassify received receivedCrc expected) s
    (.next (s.respond (.crcClass (classify received receivedCrc expected))))

end Sys2Proof.Machine
end

