-- ==== Sys2Proof/Machine/Node.lean ====
section
/-! DEFINITION. The Node Error-State Machine: ON_SUCCESS (R92), ON_FAILURE (R93, R94) and ON_BUS_OFF_TICK (R96, R97) as
functions of one node's registers (R21), and the commands that apply them. -/

namespace Sys2Proof.Machine

/-- What a node command does: the registers after it, the result code, `EV` and `BO` (R91, R116, R117). -/
structure NodeResult where
  regs : NodeRegs
  rc : ResultCode
  ev : Bool
  bo : Bool
deriving DecidableEq, Repr

/-- No register changes and there is no event (R94, R95, R96). -/
def noTransition (rc : ResultCode) (r : NodeRegs) : NodeResult := { regs := r, rc := rc, ev := false, bo := false }

/-- Write a node's registers back and answer with the fields as they are after the write (R51, R91). -/
def finishNode (n : NodeIx) (x : NodeResult) (s : State) : Result :=
  .next ((s.setNode n x.regs).respond (.node x.rc x.ev x.bo x.regs))

/-- ON_SUCCESS on one node (R92, R95): `max(0, CNT - 1)` and the label recomputed; inert in BusOff. -/
def successNode (r : NodeRegs) : NodeResult :=
  if r.state = .busOff then noTransition .ok r
  else
    let c := r.cnt.toNat - 1
    { regs := { r with cnt := BitVec.ofNat 16 c, state := label c }, rc := .ok, ev := true, bo := false }

/-- ON_FAILURE on one node (R93 to R95): a negative increment is rejected before the node is looked at; inert in BusOff;
past `BUSOFF_LIMIT` the counter is stored as it is and the node enters BusOff, recovering. -/
def failureNode (increment : BitVec 16) (r : NodeRegs) : NodeResult :=
  if increment.toInt < 0 then noTransition .invalidIncrement r
  else if r.state = .busOff then noTransition .ok r
  else
    let c := r.cnt.toNat + increment.toInt.toNat
    if Config.busOffLimit < c then
      { regs := { cnt := BitVec.ofNat 16 c, state := .busOff, recovering := true }, rc := .ok, ev := true, bo := true }
    else
      { regs := { r with cnt := BitVec.ofNat 16 c, state := label c }, rc := .ok, ev := true, bo := false }

/-- ON_BUS_OFF_TICK on one node with a recovery delay (R96, R97): only in BusOff, and only with an `elapsed` that is
itself at least the delay; nothing is accumulated. -/
def tickNode (delay elapsed : BitVec 16) (r : NodeRegs) : NodeResult :=
  if r.state ≠ .busOff then noTransition .ok r
  else if delay.toNat ≤ elapsed.toNat then
    { regs := { cnt := 0#16, state := .errorActive, recovering := false }, rc := .ok, ev := true, bo := false }
  else noTransition .ok r

/-- ON_SUCCESS (R92). -/
def execOnSuccess (n : NodeIx) (s : State) : Result :=
  obey (.onSuccess n) s (finishNode n (successNode (s.node n)) s)

/-- ON_FAILURE (R93). -/
def execOnFailure (n : NodeIx) (increment : BitVec 16) (s : State) : Result :=
  obey (.onFailure n increment) s (finishNode n (failureNode increment (s.node n)) s)

/-- ON_BUS_OFF_TICK (R96). -/
def execOnBusOffTick (n : NodeIx) (elapsed : BitVec 16) (s : State) : Result :=
  obey (.onBusOffTick n elapsed) s (finishNode n (tickNode Config.recoveryDelay elapsed (s.node n)) s)

end Sys2Proof.Machine
end

