-- ==== Sys2Proof/Machine/Dispatch.lean ====
section
/-! DEFINITION. The meaning of each command, one arm per row of the opcode table (R48). -/

namespace Sys2Proof.Machine

def exec (i : Instr) (s : State) : Host.Outcome State Fault Refusal :=
  match i with
  | .decode frame => Sys2Proof.Machine.execDecode frame s
  | .encode frameId ext values => Sys2Proof.Machine.execEncode frameId ext values s
  | .crcCompute payload => Sys2Proof.Machine.execCrcCompute payload s
  | .crcClassify received receivedCrc expected => Sys2Proof.Machine.execCrcClassify received receivedCrc expected s
  | .onSuccess n => Sys2Proof.Machine.execOnSuccess n s
  | .onFailure n increment => Sys2Proof.Machine.execOnFailure n increment s
  | .onBusOffTick n elapsed => Sys2Proof.Machine.execOnBusOffTick n elapsed s

end Sys2Proof.Machine
end

