-- ==== Sys2Proof/Machine/Step.lean ====
section
/-! DEFINITION. One step of the block: take the next complete command of the command stream, drop its words and obey it
as one atomic act (R4, R37, R40); answer an illegal one with ILLEGAL (R49); and where no complete command stands
before the next reset, reset or wait (R130, V6). -/

namespace Sys2Proof.Machine

/-- One step (R5, R37). -/
def step (s : State) : Host.Outcome State Fault Refusal :=
  match decode (leadingWords s.inputs) with
  | .command i k => exec i (s.consume k)
  | .illegal _ k => execIllegal (s.consume k)
  | .incomplete => waitOrReset s

/-- The state with one command placed at the head of the command stream, where the next step takes it (log entry 3). -/
def State.withFetchWord (s : State) (nbits w : Nat) : State :=
  { s with inputs := (tableWords nbits w).map HostInput.word ++ s.inputs }

end Sys2Proof.Machine
end

