-- ==== Sys2Proof/Machine/Assembler.lean ====
section
/-! DEFINITION. The assembler syntax of R52 and its two pseudo-instructions (R53): a line of characters to the command
it stands for, that command's words being `encode` of it, and the lines of a descriptor table to the table. What
R52 does not say of the characters is chosen in log entry 11. -/

namespace Sys2Proof.Machine

/-! ## Characters -/

/-- A line without its comment, which begins at `--` (as the tables of 95_test_vectors.md are written). -/
def stripComment : List Char → List Char
  | [] => []
  | [c] => [c]
  | c :: d :: rest => if c = '-' ∧ d = '-' then [] else c :: stripComment (d :: rest)

/-- A space between operands. -/
def isBlank (c : Char) : Bool := c = ' ' || c = '\t' || c = '\r'

/-- The characters without the blanks at both ends. -/
def trim (cs : List Char) : List Char := ((cs.dropWhile isBlank).reverse.dropWhile isBlank).reverse

/-- The parts between the separators: one more than there are separators. -/
def splitAtChar (sep : Char) : List Char → List (List Char)
  | [] => [[]]
  | c :: rest =>
    if c = sep then [] :: splitAtChar sep rest
    else
      match splitAtChar sep rest with
      | [] => [[c]]
      | part :: parts => (c :: part) :: parts

/-- The comma-separated operands; none where there is nothing. -/
def operands (cs : List Char) : List (List Char) :=
  if trim cs = [] then [] else (splitAtChar ',' cs).map trim

/-! ## Numbers -/

/-- The value of a digit below `base`. -/
def digit (base : Nat) (c : Char) : Option Nat :=
  let n := c.toNat
  let v :=
    if 48 ≤ n ∧ n ≤ 57 then n - 48
    else if 65 ≤ n ∧ n ≤ 70 then n - 55
    else if 97 ≤ n ∧ n ≤ 102 then n - 87
    else base
  if v < base then some v else none

/-- Digits after a number already read. -/
def digitsFrom (base : Nat) : Nat → List Char → Option Nat
  | acc, [] => some acc
  | acc, c :: rest =>
    match digit base c with
    | some v => digitsFrom base (acc * base + v) rest
    | none => none

/-- One or more digits. -/
def digits (base : Nat) (cs : List Char) : Option Nat := if cs = [] then none else digitsFrom base 0 cs

/-- A number, decimal or `0x` hexadecimal (R52). -/
def number : List Char → Option Nat
  | '0' :: 'x' :: hex => digits 16 hex
  | cs => digits 10 cs

/-- A number below a bound. -/
def numberBelow (bound : Nat) (cs : List Char) : Option Nat := (number cs).filter (· < bound)

/-- A signed decimal that 16 bits in two's complement hold (R42, R52); a `0x` number is taken too (log entry 11). -/
def signed16 : List Char → Option (BitVec 16)
  | '-' :: cs => (numberBelow (2 ^ 15 + 1) cs).map fun n => -(BitVec.ofNat 16 n)
  | cs => (numberBelow (2 ^ 15) cs).map (BitVec.ofNat 16)

/-- A decimal without its sign, as a numerator over a power of ten. -/
def decimal (cs : List Char) : Option (Nat × Nat) :=
  match splitAtChar '.' cs with
  | [whole] => (digits 10 whole).map fun n => (n, 1)
  | [whole, frac] =>
    match digits 10 whole, digits 10 frac with
    | some _, some _ => (digits 10 (whole ++ frac)).map fun n => (n, 10 ^ frac.length)
    | _, _ => none
  | _ => none

/-- The f64 nearest to a decimal, ties to even. -/
def decimalBits (neg : Bool) (cs : List Char) : Option F64 :=
  (decimal cs).map fun q => toBits (roundQuot neg (q.1 * fone) q.2) 0#64

/-- An f64 operand: a decimal or a `0x` f64 pattern. R52 says so of the value of an ENCODE pair; that the factor and the
offset of a SIGNAL line are read alike is the model's choice (DESIGN CHOICE, log entry 11). -/
def f64Operand : List Char → Option F64
  | '0' :: 'x' :: hex => ((digits 16 hex).filter (· < 2 ^ 64)).map (BitVec.ofNat 64)
  | '-' :: cs => decimalBits true cs
  | cs => decimalBits false cs

/-! ## Operands of a command -/

/-- A node operand. -/
def nodeOperand (cs : List Char) : Option NodeIx :=
  match number cs with
  | some n => if h : n < Config.nNodes then some ⟨n, h⟩ else none
  | none => none

/-- `ext`, 0 or 1. -/
def extOperand (cs : List Char) : Option Bool := (numberBelow 2 cs).map (· == 1)

/-- A 32-bit operand. -/
def wordOperand (cs : List Char) : Option Word := (numberBelow (2 ^ 32) cs).map (BitVec.ofNat 32)

/-- The bytes of a payload operand: hexadecimal, the first one first, or `-` for none. -/
def byteList (cs : List Char) : Option (List Byte) :=
  if cs = ['-'] then some []
  else
    (splitAtChar ':' cs).mapM fun b => ((digits 16 (trim b)).filter (· < 256)).map (BitVec.ofNat 8)

/-- A payload, its length and its bytes, which must be as many. -/
def payloadOperand (len bytes : List Char) : Option (List Byte) :=
  match numberBelow (Config.payloadMax + 1) len, byteList bytes with
  | some n, some p => if p.length = n then some p else none
  | _, _ => none

/-- One pair `sidx=value` of an ENCODE line. -/
def pairOperand (cs : List Char) : Option (Byte × F64) :=
  match splitAtChar '=' cs with
  | [k, v] =>
    match numberBelow 256 (trim k), f64Operand (trim v) with
    | some k, some v => some (BitVec.ofNat 8 k, v)
    | _, _ => none
  | _ => none

/-! ## Command lines (R52, R53) -/

/-- `DECODE id, ext, len, b0:b1:...` -/
def asmDecode : List (List Char) → Option Instr
  | [id, ext, len, bytes] =>
    match wordOperand id, extOperand ext, payloadOperand len bytes with
    | some id, some ext, some p => some (.decode { id := id, extended := ext, payload := p })
    | _, _, _ => none
  | _ => none

/-- `ENCODE id, ext, sidx=value, ...` -/
def asmEncode : List (List Char) → Option Instr
  | id :: ext :: pairs =>
    match wordOperand id, extOperand ext, pairs.mapM pairOperand with
    | some id, some ext, some vs => if vs.length ≤ Config.maxPairs then some (.encode id ext vs) else none
    | _, _, _ => none
  | _ => none

/-- `CRC_COMPUTE len, b0:b1:...` -/
def asmCrcCompute : List (List Char) → Option Instr
  | [len, bytes] => (payloadOperand len bytes).map .crcCompute
  | _ => none

/-- `CRC_CLASSIFY rlen, rb0:rb1:..., crc, elen, eb0:eb1:...` -/
def asmCrcClassify : List (List Char) → Option Instr
  | [rlen, rbytes, crc, elen, ebytes] =>
    match payloadOperand rlen rbytes, numberBelow (2 ^ 15) crc, payloadOperand elen ebytes with
    | some r, some c, some e => some (.crcClassify r (BitVec.ofNat 15 c) e)
    | _, _, _ => none
  | _ => none

/-- A line with one node operand: `ON_SUCCESS n`, `TXFAIL n`, `RXFAIL n`. -/
def asmNode (make : NodeIx → Instr) : List (List Char) → Option Instr
  | [n] => (nodeOperand n).map make
  | _ => none

/-- `ON_FAILURE n, increment` -/
def asmOnFailure : List (List Char) → Option Instr
  | [n, k] =>
    match nodeOperand n, signed16 k with
    | some n, some k => some (.onFailure n k)
    | _, _ => none
  | _ => none

/-- `ON_BUS_OFF_TICK n, elapsed` -/
def asmOnBusOffTick : List (List Char) → Option Instr
  | [n, t] =>
    match nodeOperand n, numberBelow (2 ^ 16) t with
    | some n, some t => some (.onBusOffTick n (BitVec.ofNat 16 t))
    | _, _ => none
  | _ => none

/-- The mnemonic of a line and what follows it. -/
def mnemonicAndRest (line : List Char) : List Char × List Char :=
  let cs := trim (stripComment line)
  (cs.takeWhile fun c => !isBlank c, cs.dropWhile fun c => !isBlank c)

/-- The command a line stands for, a pseudo-instruction expanded (R52, R53); none where it is no line of R52. -/
def assembleLine (line : List Char) : Option Instr :=
  let (mnemonic, rest) := mnemonicAndRest line
  let ops := operands rest
  if mnemonic = "DECODE".toList then asmDecode ops
  else if mnemonic = "ENCODE".toList then asmEncode ops
  else if mnemonic = "CRC_COMPUTE".toList then asmCrcCompute ops
  else if mnemonic = "CRC_CLASSIFY".toList then asmCrcClassify ops
  else if mnemonic = "ON_SUCCESS".toList then asmNode .onSuccess ops
  else if mnemonic = "ON_FAILURE".toList then asmOnFailure ops
  else if mnemonic = "ON_BUS_OFF_TICK".toList then asmOnBusOffTick ops
  else if mnemonic = "TXFAIL".toList then asmNode .txFail ops
  else if mnemonic = "RXFAIL".toList then asmNode .rxFail ops
  else none

/-- The words of a line; the byte lanes a payload does not use are 0 (R52). -/
def assemble (line : List Char) : Option (List Word) := (assembleLine line).map encode

/-! ## Descriptor tables (R52) -/

/-- `LE` or `BE`. -/
def orderOperand (cs : List Char) : Option ByteOrder :=
  if cs = "LE".toList then some .littleEndian else if cs = "BE".toList then some .bigEndian else none

/-- `FRAME id [, dlen]`: a new entry with no signal yet. `dlen` defaults to 8, in this syntax only (R13, C8). -/
def asmFrame : List (List Char) → Option (Word × Entry)
  | [id] => (wordOperand id).map fun id => (id, { dlen := Config.payloadMax, signals := [] })
  | [id, dlen] =>
    match wordOperand id, number dlen with
    | some id, some dlen => some (id, { dlen := dlen, signals := [] })
    | _, _ => none
  | _ => none

/-- `SIGNAL start_bit, bit_length, LE|BE, factor, offset, unit`. R52 does not say how a `0x` factor or offset is read; here
it is an f64 bit pattern, as the value of an ENCODE pair is (DESIGN CHOICE, log entry 11). -/
def asmSignal : List (List Char) → Option SignalLayout
  | [start, len, order, factor, offset, unit] =>
    match wordOperand start, wordOperand len, orderOperand order, f64Operand factor, f64Operand offset,
      wordOperand unit with
    | some start, some len, some order, some factor, some offset, some unit =>
      some { startBit := start, bitLength := len, byteOrder := order, factor := factor, offset := offset, unit := unit }
    | _, _, _, _, _, _ => none
  | _ => none

/-- One more line of a table whose entries so far are given, the last one first. -/
def tableLine (sofar : DescTable) (line : List Char) : Option DescTable :=
  let (keyword, rest) := mnemonicAndRest line
  if keyword = [] then some sofar
  else if keyword = "FRAME".toList then (asmFrame (operands rest)).map (· :: sofar)
  else if keyword = "SIGNAL".toList then
    match sofar, asmSignal (operands rest) with
    | (id, e) :: earlier, some s => some ((id, { e with signals := e.signals ++ [s] }) :: earlier)
    | _, _ => none
  else none

/-- The table the lines write out, entries and signals in the order written (R52). -/
def assembleTable (lines : List (List Char)) : Option DescTable :=
  (lines.foldlM tableLine []).map List.reverse

end Sys2Proof.Machine
end

