-- ==== Sys2Proof/Safety.lean ====
section
/-! DEFINITION. The terms the statements are made in: the invariant of a block that exists and the states a run can
reach; the parts of a response; which commands name a node; and when a command is malformed, read off the bits of
its words. -/

namespace Sys2Proof.Safety

open Sys2Proof.Machine

/-- The invariant of a block that exists: its table passes `CheckDescriptor` and its node registers are reachable ones
(R14, R17, R132). -/
def BlockInv (s : State) : Prop := s.valid = true

/-- A step is safe when it answers a next state: no fault and no refusal. -/
def SafeStep (s : State) : Prop := ∃ t, step s = .next t

/-- The states a run can reach from `s`: the block steps, or the host adds to its stream. -/
inductive Reaches (s : State) : State → Prop where
  | refl : Reaches s s
  | step {t u : State} : Reaches s t → Machine.step t = .next u → Reaches s u
  | send {t : State} (xs : List HostInput) : Reaches s t → Reaches s { t with inputs := t.inputs ++ xs }

/-! ## Parts of a response (R50, R51) -/

/-- `RC`, bits 31:24 of the first word of a response. -/
def responseCode (r : List Word) : Byte := (r.headD 0#32).extractLsb' 24 8

/-- `EV`, bit 23 of the word of a node response. -/
def eventValid (r : List Word) : Bool := (r.headD 0#32).getLsbD 23

/-- `BO`, bit 22 of the word of a node response. -/
def busOffEntered (r : List Word) : Bool := (r.headD 0#32).getLsbD 22

/-! ## Commands -/

/-- A node command addressed to node `n` (R91). -/
inductive NodeCommand (n : NodeIx) : Instr → Prop where
  | success : NodeCommand n (.onSuccess n)
  | failure (increment : BitVec 16) : NodeCommand n (.onFailure n increment)
  | tick (elapsed : BitVec 16) : NodeCommand n (.onBusOffTick n elapsed)

/-- A command of the Frame Codec or the CRC-15 Validator. -/
inductive StatelessCommand : Instr → Prop where
  | decode (f : RawFrame) : StatelessCommand (.decode f)
  | encode (id : Word) (ext : Bool) (vs : List (Byte × F64)) : StatelessCommand (.encode id ext vs)
  | crcCompute (p : List Byte) : StatelessCommand (.crcCompute p)
  | crcClassify (r : List Byte) (c : BitVec 15) (e : List Byte) : StatelessCommand (.crcClassify r c e)

/-- Bits `lo + n - 1 : lo` of a word as a number. -/
def field (w : Word) (lo n : Nat) : Nat := w.toNat / 2 ^ lo % 2 ^ n

/-- The words of a complete command are malformed: R49 (a) to (d), read off the formats of R42 to R47 bit by bit, `N_NODES` being 2 (R6). `args`
are the words after the header. -/
def Malformed (w0 : Word) (args : List Word) : Prop :=
  match field w0 24 8 with
  | 0x01 => field w0 9 15 ≠ 0 ∨ field w0 4 4 ≠ 0 ∨ 8 < field w0 0 4
  | 0x02 => field w0 9 15 ≠ 0 ∨ ∃ j < field w0 0 8, field (args.getD (1 + 3 * j) 0#32) 8 24 ≠ 0
  | 0x10 => field w0 4 20 ≠ 0 ∨ 8 < field w0 0 4
  | 0x11 => field w0 15 1 ≠ 0 ∨ 8 < field w0 20 4 ∨ 8 < field w0 16 4
  | 0x20 => field w0 0 16 ≠ 0 ∨ 2 ≤ field w0 16 8
  | 0x21 => 2 ≤ field w0 16 8
  | 0x22 => 2 ≤ field w0 16 8
  | _ => True

/-- How many words a command has: R48, and one for a reserved opcode (R49). -/
def wordsOf (w0 : Word) : Nat :=
  match field w0 24 8 with
  | 0x01 => 4
  | 0x02 => 2 + 3 * field w0 0 8
  | 0x10 => 3
  | 0x11 => 5
  | _ => 1

/-- R63, R61, R70: `raw` is `RoundInt((v - offset) / factor)` with the tie rule of this hardware, half_even (R6, R69), and
that is in `0 .. 2^bit_length - 1`, `-0` being 0. -/
def RawIs (v : F64) (l : SignalLayout) (raw : Nat) : Prop :=
  ∃ neg, roundInt .halfEven (fdiv (fsub (ofBits v) (ofBits l.offset)) (ofBits l.factor)) = .fin neg (raw * fone) ∧
    (neg = true → raw = 0) ∧ raw < 2 ^ l.bitLength.toNat

/-- A sign and a magnitude as one integer. -/
def signed (neg : Bool) (mag : Nat) : Int := if neg then -(mag : Int) else mag

end Sys2Proof.Safety
end

