-- ==== Sys2Proof/Certificates/Slice0/Obligations.lean ====
section
/-! DEFINITION. The statements for the provers, each a rule of spec/ (R<n>) or what follows from several. A free NaN value
(log entry 2) stands in some of them; each holds for every value of it. -/

open Sys2Proof Sys2Proof.Machine Sys2Proof.Safety

/-! ## Commands and their words (R40 to R49) -/

/-- R41 to R47: the decoder gives back every well-formed instruction from its encoder's words, whatever words follow. -/
def Obligations.DecodeOfEncodeGivesTheInstruction : Prop :=
  ∀ (i : Instr) (rest : List Word), i.wellFormed = true →
    decode (encode i ++ rest) = .command i (encode i).length

/-- R43 (a): two words carry a payload: byte `j` of it stands in bits `8*j+7 : 8*j` of the first for `j < 4`, and in bits
`8*(j-4)+7 : 8*(j-4)` of the second above. -/
def Sys2Proof.Safety.CarryPayload (lo hi : Option Word) (p : List Byte) : Prop :=
  ∃ plo phi : Word, lo = some plo ∧ hi = some phi ∧
    ∀ (j : Nat) (h : j < p.length),
      (p[j]).toNat = if j < 4 then field plo (8 * j) 8 else field phi (8 * (j - 4)) 8

/-- R40 to R47, the other direction: a command the decoder accepts is well formed, was wholly there, and has the length
and the header the encoder gives it. For ENCODE and the node commands every word is the encoder's. A DECODE has the
id of its second word, and each payload of DECODE, CRC_COMPUTE and CRC_CLASSIFY is, byte by byte, the lanes of the
two words its format gives it; of these words only the lanes no rule reads (R43) may differ from the encoder's. -/
def Obligations.AcceptedWordsAreTheEncodersButForUnusedLanes : Prop :=
  ∀ (ws : List Word) (i : Instr) (k : Nat), decode ws = .command i k →
    i.wellFormed = true ∧ k ≤ ws.length ∧ (encode i).length = k ∧ (encode i).head? = ws.head? ∧
    ((∃ id ext vs, i = .encode id ext vs) ∨ (∃ n, NodeCommand n i) → encode i = ws.take k) ∧
    (∀ f, i = .decode f → ws[1]? = some f.id ∧ CarryPayload ws[2]? ws[3]? f.payload) ∧
    (∀ p, i = .crcCompute p → CarryPayload ws[1]? ws[2]? p) ∧
    (∀ r c e, i = .crcClassify r c e → CarryPayload ws[1]? ws[2]? r ∧ CarryPayload ws[3]? ws[4]? e)

/-- R43 (a): DECODE, CRC_COMPUTE and CRC_CLASSIFY words that differ only in byte lanes at or above the payload's length
are the same command. -/
def Obligations.UnusedByteLanesAreIgnored : Prop :=
  ∀ (w0 w1 lo hi lo' hi' elo ehi elo' ehi' : Word),
    (opc w0 = 0x01#8 → (∀ i < field w0 0 4, (lanes lo ++ lanes hi)[i]? = (lanes lo' ++ lanes hi')[i]?) →
      decode [w0, w1, lo, hi] = decode [w0, w1, lo', hi']) ∧
    (opc w0 = 0x10#8 → (∀ i < field w0 0 4, (lanes lo ++ lanes hi)[i]? = (lanes lo' ++ lanes hi')[i]?) →
      decode [w0, lo, hi] = decode [w0, lo', hi']) ∧
    (opc w0 = 0x11#8 → (∀ i < field w0 16 4, (lanes lo ++ lanes hi)[i]? = (lanes lo' ++ lanes hi')[i]?) →
      (∀ i < field w0 20 4, (lanes elo ++ lanes ehi)[i]? = (lanes elo' ++ lanes ehi')[i]?) →
      decode [w0, lo, hi, elo, ehi] = decode [w0, lo', hi', elo', ehi'])

/-- Worked words of R92, R93, R96, R60, R61, R81 and R82 decode to the commands they stand for. -/
def Obligations.WorkedWordsDecode : Prop :=
  decode [0x20000000#32] = .command (.onSuccess 0) 1 ∧
  decode [0x2101FFFF#32] = .command (.onFailure 1 0xFFFF#16) 1 ∧
  decode [0x22000002#32] = .command (.onBusOffTick 0 2#16) 1 ∧
  decode [0x01000102#32, 0x1FFFFFFF#32, 0x00006400#32, 0#32] = .command (.decode ⟨0x1FFFFFFF#32, true, [0x00#8, 0x64#8]⟩) 4 ∧
  decode [0x02000001#32, 0x123#32, 0#32, 0#32, 0x409F4000#32]
    = .command (.encode 0x123#32 false [(0#8, 0x409F400000000000#64)]) 5 ∧
  decode [0x10000003#32, 0x00C3B2A1#32, 0#32] = .command (.crcCompute [0xA1#8, 0xB2#8, 0xC3#8]) 3 ∧
  decode [0x11327FFF#32, 0x3412#32, 0#32, 0x3412#32, 0#32]
    = .command (.crcClassify [0x12#8, 0x34#8] 0x7FFF#15 [0x12#8, 0x34#8, 0x00#8]) 5

/-- R49, whole: a complete command is illegal exactly when (a) to (d) say so; then the step changes nothing but to take
the words its format says and answer with the one word `0xFF000000`; and a command that is not illegal is one of the
seven. (That the answer comes also where a reset follows the command: the model's choice, log entry 4.) -/
def Obligations.IllegalCommandAnswersIllegal : Prop :=
  ∀ (s : State) (w0 : Word) (args : List Word), BlockInv s → leadingWords s.inputs = w0 :: args →
    wordsOf w0 ≤ args.length + 1 →
      (Malformed w0 args →
        step s = .next { s with inputs := s.inputs.drop (wordsOf w0)
                                responses := s.responses ++ [[0xFF000000#32]] }) ∧
      (¬ Malformed w0 args → ∃ i, decode (w0 :: args) = .command i (wordsOf w0))

/-- R40, V6: with fewer words than the header asks for, or none, and no reset, the block waits: no step happens and no
state changes (that the step answers the unchanged state is the model's choice, log entry 5). -/
def Obligations.IncompleteCommandWaits : Prop :=
  ∀ (s : State) (ws : List Word), BlockInv s → s.inputs = ws.map .word →
    (∀ w0, ws.head? = some w0 → ws.length < wordsOf w0) → step s = .next s

/-- R37: a step takes the next complete command of the stream and is its meaning. (Also where a reset follows the command:
the model's choice, log entry 4.) -/
def Obligations.StepRunsTheDecodedCommand : Prop :=
  ∀ (s : State) (i : Instr) (k : Nat), decode (leadingWords s.inputs) = .command i k →
    step s = exec i { s with inputs := s.inputs.drop k }

/-- R37, R40 with the encodings: a well-formed command whose words the host has sent runs, and what follows them on the
stream is left for the next step. That it also runs where a reset follows is the model's choice: R130 and V2 leave open
what becomes of a command in progress at reset, and in the model the reset comes after it (log entry 4). -/
def Obligations.SentCommandRuns : Prop :=
  ∀ (s : State) (i : Instr) (rest : List HostInput), i.wellFormed = true →
    s.inputs = (encode i).map .word ++ rest → step s = exec i { s with inputs := rest }

/-- The table of R50, written out. -/
def Sys2Proof.Safety.resultNumber : ResultCode → Nat
  | .ok => 0x00
  | .configurationError => 0x01
  | .unknownFrameId => 0x10
  | .truncatedPayload => 0x11
  | .unknownSignal => 0x20
  | .valueOutOfRange => 0x21
  | .invalidIncrement => 0x30
  | .illegal => 0xFF

/-- The codes of R11, written out. -/
def Sys2Proof.Safety.stateNumber : NodeState → Nat
  | .errorActive => 0
  | .errorWarning => 1
  | .errorPassive => 2
  | .busOff => 3

/-- R50, R51, R11: which bits of which word each response field stands in, the value of every result code and state code
there, and that every other bit of the header is 0. -/
def Obligations.ResponseFieldsStandWhereStated : Prop :=
  (∀ (sigs : List DecodedSignal), sigs.length ≤ 64 →
    (Response.decoded sigs).words.length = 1 + 5 * sigs.length ∧
    (Response.decoded sigs).words.head? = some (BitVec.ofNat 32 sigs.length) ∧
    ∀ (i : Nat) (h : i < sigs.length),
      ((Response.decoded sigs).words.drop (1 + 5 * i)).take 5
        = [sigs[i].raw.extractLsb' 0 32, sigs[i].raw.extractLsb' 32 32,
           sigs[i].physical.extractLsb' 0 32, sigs[i].physical.extractLsb' 32 32, sigs[i].unit]) ∧
  (∀ (f : RawFrame), f.length ≤ 8 → ∃ r0 lo hi : Word, (Response.frame f).words = [r0, f.id, lo, hi] ∧
    r0.toNat = (if f.extended then 256 else 0) + f.length ∧
    ∀ i < 8, (lanes lo ++ lanes hi)[i]? = some (if h : i < f.length then f.payload[i] else 0#8)) ∧
  (∀ (c : BitVec 15), ∃ r0 : Word, (Response.crc c).words = [r0] ∧ r0.toNat = c.toNat) ∧
  (∀ (c : CrcClass), ∃ r0 : Word, (Response.crcClass c).words = [r0] ∧
    r0.toNat = match c with | .ok => 0 | .crcError => 1 | .bitError => 2) ∧
  (∀ (rc : ResultCode) (ev bo : Bool) (r : NodeRegs), ∃ r0 : Word, (Response.node rc ev bo r).words = [r0] ∧
    r0.toNat = resultNumber rc * 2 ^ 24 + ev.toNat * 2 ^ 23 + bo.toNat * 2 ^ 22 + r.recovering.toNat * 2 ^ 21
      + stateNumber r.state * 2 ^ 16 + r.cnt.toNat) ∧
  (∀ (rc : ResultCode), ∃ r0 : Word, (Response.error rc).words = [r0] ∧ r0.toNat = resultNumber rc * 2 ^ 24)

/-! ## Reset, construction, and the machine as a whole -/

/-- R20, the node registers after reset. -/
def Obligations.ResetLeavesEveryNodeAsCreated : Prop :=
  ∀ n : NodeIx, (State.reset.node n).cnt = 0#16 ∧ (State.reset.node n).state = .errorActive ∧
    (State.reset.node n).recovering = false

/-- R130, R131 (that a reset falls between commands: log entry 4): the reset input re-creates every node at once,
loses the words of a command that is not complete, leaves `DESC` as it is and returns no response. -/
def Obligations.ResetInputRecreatesTheNodes : Prop :=
  ∀ (s : State) (rest : List HostInput), BlockInv s → decode (leadingWords s.inputs) = .incomplete →
    afterWords s.inputs = .reset :: rest →
      ∃ t, step s = .next t ∧ (∀ n, t.node n = { cnt := 0#16, state := .errorActive, recovering := false }) ∧
        t.desc = s.desc ∧ t.inputs = rest ∧ t.responses = s.responses ∧ t.draws = s.draws

/-- The reset state meets the invariant (its table is the empty one, the model's choice: log entry 1). -/
def Obligations.ResetMeetsTheInvariant : Prop := BlockInv State.reset

/-- R17, R132: whatever the block does, it stays a block whose table passes the check and whose node registers are
related as R17 says. -/
def Obligations.EveryStepKeepsTheInvariant : Prop :=
  ∀ s t : State, BlockInv s → step s = .next t → BlockInv t

/-- R17, whole: in every state reachable from a constructed block, whatever the host sends. -/
def Obligations.ReachableRegistersAreRelated : Prop :=
  ∀ (d : DescTable) (s t : State), construct d = .ok s → Reaches s t → ∀ n : NodeIx,
    ((t.node n).state = .errorActive ↔ (t.node n).cnt.toNat < 128) ∧
    ((t.node n).state = .errorWarning ↔ 128 ≤ (t.node n).cnt.toNat ∧ (t.node n).cnt.toNat ≤ 255) ∧
    ((t.node n).state = .busOff ↔ 255 < (t.node n).cnt.toNat) ∧
    (t.node n).state ≠ .errorPassive ∧
    ((t.node n).recovering = true ↔ (t.node n).state = .busOff)

/-- R10: the counter of a reachable state is at most 255 + 32767, so the 16-bit register never wraps. -/
def Obligations.ReachableCounterIsBounded : Prop :=
  ∀ (d : DescTable) (s t : State), construct d = .ok s → Reaches s t → ∀ n : NodeIx, (t.node n).cnt.toNat ≤ 33022

/-- R38, R110, R132: a step answers exactly when the block exists; then no complete command, legal or not, stops it.
Two parts of this are the model's choice: that a step answers also when nothing complete is on the stream, where R40
and V6 say that no step happens (log entry 5); and that every step is refused where no block exists (log entry 6). -/
def Obligations.StepAnswersExactlyWhenTheBlockExists : Prop :=
  ∀ s : State, SafeStep s ↔ BlockInv s

/-- R115, R132: a table that fails the check constructs no block, and no command has a meaning under it; one that passes
gives a block with every node as created. That EVERY command and step in EVERY state under a failing table, the wait
and the reset input among them, is refused by the name configurationError is the model's choice (log entry 6). -/
def Obligations.FailingTableConstructsNothing : Prop :=
  ∀ d : DescTable, isMap d = true →
    (checkDescriptor d = .configurationError →
      construct d = .error .configurationError ∧
      ∀ s : State, s.desc = d → (∀ i, exec i s = .refused .configurationError) ∧ step s = .refused .configurationError) ∧
    (checkDescriptor d = .ok →
      ∃ s, construct d = .ok s ∧ s.desc = d ∧ BlockInv s ∧ ∀ n, s.node n = { cnt := 0#16, state := .errorActive, recovering := false })

/-- R13, R131: no step writes `DESC`. -/
def Obligations.TableIsNeverWritten : Prop :=
  ∀ s t : State, step s = .next t → t.desc = s.desc

/-- R37, R38, R40: every complete command, legal or not, gets exactly one response, after all earlier ones, and exactly
its words are taken. (Also where a reset follows the command: the model's choice, log entry 4.) -/
def Obligations.EveryCommandGetsOneResponse : Prop :=
  ∀ s : State, BlockInv s → ∀ k : Nat,
    ((∃ i, decode (leadingWords s.inputs) = .command i k) ∨ (∃ e, decode (leadingWords s.inputs) = .illegal e k)) →
      ∃ t r, step s = .next t ∧ t.responses = s.responses ++ [r] ∧ r ≠ [] ∧ t.inputs = s.inputs.drop k

/-- R112, R51: a command that ends with `RC` other than OK changes no register, emits no event and returns no data: its
response is one word, and unless the code is InvalidIncrement's, which carries the node's registers (OnFailureResult),
that word is the code in its top byte and 0 below it. -/
def Obligations.ErrorChangesNothing : Prop :=
  ∀ (i : Instr) (s t : State), exec i s = .next t →
    ∃ r, t.responses = s.responses ++ [r] ∧
      (responseCode r ≠ 0#8 →
        t.nodes = s.nodes ∧ t.desc = s.desc ∧ t.inputs = s.inputs ∧ t.draws = s.draws ∧
        r.length = 1 ∧ eventValid r = false ∧ busOffEntered r = false ∧
        (responseCode r ≠ 0x30#8 → r = [BitVec.ofNat 32 ((responseCode r).toNat * 2 ^ 24)]))

/-! ## The node machine (R90 to R98) -/

/-- R90, the thresholds; `Label` never gives ErrorPassive. -/
def Obligations.LabelHasTheStatedThresholds : Prop :=
  ∀ c : Nat, (c < 128 → label c = .errorActive) ∧ (128 ≤ c ∧ c ≤ 255 → label c = .errorWarning) ∧
    (255 < c → label c = .busOff) ∧ label c ≠ .errorPassive

/-- R92, R95: ON_SUCCESS completes in every state of a block. Outside BusOff the counter goes down by one, no further
than 0, the label is recomputed and `EV` is 1; in BusOff the node is inert. -/
def Obligations.OnSuccessResult : Prop :=
  ∀ (s : State) (n : NodeIx), BlockInv s →
    ((s.node n).state = .busOff →
      exec (.onSuccess n) s = .next (s.respond (.node .ok false false (s.node n)))) ∧
    ((s.node n).state ≠ .busOff →
      ∃ r : NodeRegs, r.cnt.toNat = max 0 ((s.node n).cnt.toNat - 1) ∧ r.state = label ((s.node n).cnt.toNat - 1) ∧
        r.state ≠ .busOff ∧ r.recovering = false ∧
        exec (.onSuccess n) s = .next ((s.setNode n r).respond (.node .ok true false r)))

/-- R93 to R95: ON_FAILURE completes in every state of a block. A negative increment is rejected first; in BusOff the
node is inert; otherwise the increment is added without wrap, and past 255 the node enters BusOff, recovering, with
the counter as it is. -/
def Obligations.OnFailureResult : Prop :=
  ∀ (s : State) (n : NodeIx) (increment : BitVec 16), BlockInv s →
    (increment.toInt < 0 →
      exec (.onFailure n increment) s = .next (s.respond (.node .invalidIncrement false false (s.node n)))) ∧
    (0 ≤ increment.toInt → (s.node n).state = .busOff →
      exec (.onFailure n increment) s = .next (s.respond (.node .ok false false (s.node n)))) ∧
    (0 ≤ increment.toInt → (s.node n).state ≠ .busOff →
      ∃ r : NodeRegs, (r.cnt.toNat : Int) = (s.node n).cnt.toNat + increment.toInt ∧
        (255 < r.cnt.toNat → r.state = .busOff ∧ r.recovering = true) ∧
        (r.cnt.toNat ≤ 255 → r.state = label r.cnt.toNat ∧ r.recovering = false) ∧
        exec (.onFailure n increment) s
          = .next ((s.setNode n r).respond (.node .ok true (decide (255 < r.cnt.toNat)) r)))

/-- R96, R97: ON_BUS_OFF_TICK completes in every state of a block. It recovers a node in BusOff when `elapsed` is at
least the recovery delay, 2, and does nothing else. -/
def Obligations.OnBusOffTickResult : Prop :=
  ∀ (s : State) (n : NodeIx) (elapsed : BitVec 16), BlockInv s →
    ((s.node n).state = .busOff → 2 ≤ elapsed.toNat →
      exec (.onBusOffTick n elapsed) s
        = .next ((s.setNode n ⟨0#16, .errorActive, false⟩).respond (.node .ok true false ⟨0#16, .errorActive, false⟩))) ∧
    ((s.node n).state ≠ .busOff ∨ elapsed.toNat < 2 →
      exec (.onBusOffTick n elapsed) s = .next (s.respond (.node .ok false false (s.node n))))

/-- R21, R91, frame: a node command writes no register but those of its node, and returns one response. -/
def Obligations.NodeCommandWritesOnlyItsNode : Prop :=
  ∀ (n : NodeIx) (i : Instr) (s t : State), NodeCommand n i → exec i s = .next t →
    (∀ m, m ≠ n → t.node m = s.node m) ∧ t.desc = s.desc ∧ t.inputs = s.inputs ∧ t.draws = s.draws ∧
      ∃ r0 : Word, t.responses = s.responses ++ [[r0]]

/-- R21, R122: what a node command does to its node, and what it answers, depends on that node's registers alone. -/
def Obligations.NodeCommandReadsOnlyItsNode : Prop :=
  ∀ (n : NodeIx) (i : Instr) (s s' t : State), NodeCommand n i → BlockInv s → BlockInv s' → s.node n = s'.node n →
    exec i s = .next t →
      ∃ t' r, exec i s' = .next t' ∧ t'.node n = t.node n ∧
        t.responses = s.responses ++ [r] ∧ t'.responses = s'.responses ++ [r]

/-- R97: the only way out of BusOff, but for the reset input (R95), is an ON_BUS_OFF_TICK of that node with `elapsed` at
least the delay, and it leaves the node as reset does. -/
def Obligations.OnlyARecoveringTickLeavesBusOff : Prop :=
  ∀ (s t : State) (n : NodeIx), step s = .next t → (s.node n).state = .busOff → t.node n ≠ s.node n →
    t.node n = State.reset.node n ∧
      ((∃ elapsed k, decode (leadingWords s.inputs) = .command (.onBusOffTick n elapsed) k ∧
          Config.recoveryDelay.toNat ≤ elapsed.toNat) ∨
        (decode (leadingWords s.inputs) = .incomplete ∧ ∃ rest, afterWords s.inputs = .reset :: rest))

/-- R93 (c), R99 (a): a node enters BusOff exactly by an ON_FAILURE of it that takes its counter past 255. -/
def Obligations.BusOffIsEnteredExactlyPast255 : Prop :=
  ∀ (i : Instr) (s t : State) (n : NodeIx), exec i s = .next t → (s.node n).state ≠ .busOff →
    ((t.node n).state = .busOff ↔
      ∃ increment : BitVec 16, i = .onFailure n increment ∧ 0 ≤ increment.toInt ∧
        255 < (s.node n).cnt.toNat + increment.toInt)

/-- R91, R116, R117: `EV` is 1 exactly when the command was a transition, `BO` exactly when it moved the node into
BusOff. -/
def Obligations.EventBitsReportTransitions : Prop :=
  ∀ (n : NodeIx) (i : Instr) (s t : State), NodeCommand n i → exec i s = .next t →
    ∃ r, t.responses = s.responses ++ [r] ∧
      (busOffEntered r = true ↔ (s.node n).state ≠ .busOff ∧ (t.node n).state = .busOff) ∧
      (eventValid r = true ↔
        ((s.node n).state ≠ .busOff ∧
          (i = .onSuccess n ∨ ∃ increment : BitVec 16, i = .onFailure n increment ∧ 0 ≤ increment.toInt)) ∨
        ((s.node n).state = .busOff ∧
          ∃ elapsed : BitVec 16, i = .onBusOffTick n elapsed ∧ Config.recoveryDelay.toNat ≤ elapsed.toNat))

/-! ## The CRC-15 Validator (R80 to R82) -/

/-- The polynomial whose coefficients are the given bits, the highest power first. -/
noncomputable def Sys2Proof.Safety.bitsPoly (bs : List Bool) : Polynomial (ZMod 2) :=
  bs.foldl (fun q b => q * Polynomial.X + (if b then 1 else 0)) 0

/-- The generator of R80 with its implicit `x^15` term. -/
noncomputable def Sys2Proof.Safety.generator : Polynomial (ZMod 2) :=
  Polynomial.X ^ 15 + Polynomial.X ^ 14 + Polynomial.X ^ 10 + Polynomial.X ^ 8 + Polynomial.X ^ 7 + Polynomial.X ^ 4
    + Polynomial.X ^ 3 + 1

/-- R80: the bit-serial register is the remainder of the payload's polynomial times `x^15` by the generator, for
payloads of every length. -/
def Obligations.CrcIsThePolynomialRemainder : Prop :=
  ∀ p : List Byte,
    generator ∣ bitsPoly (p.flatMap fun b => (List.range 8).map fun j => b.getLsbD (7 - j)) * Polynomial.X ^ 15
      + bitsPoly ((List.range 15).map fun j => (crc15 p).getLsbD (14 - j))

/-- R81: CRC_COMPUTE completes in every state of a block; the answer is the CRC in one word and nothing else changes. -/
def Obligations.CrcComputeResult : Prop :=
  ∀ (s : State) (p : List Byte), BlockInv s → p.length ≤ 8 →
    exec (.crcCompute p) s = .next { s with responses := s.responses ++ [[BitVec.ofNat 32 (crc15 p).toNat]] }

/-- R82: CRC_CLASSIFY completes in every state of a block; the CRC test comes first, then the payloads, unequal when
their lengths or any of their bytes differ. -/
def Obligations.CrcClassifyResult : Prop :=
  ∀ (s : State) (rp : List Byte) (rcrc : BitVec 15) (ep : List Byte), BlockInv s → rp.length ≤ 8 → ep.length ≤ 8 →
    ∃ c : Nat, exec (.crcClassify rp rcrc ep) s = .next { s with responses := s.responses ++ [[BitVec.ofNat 32 c]] } ∧
      (crc15 rp = rcrc → c = 0) ∧
      (crc15 rp ≠ rcrc → (rp.length ≠ ep.length ∨ ∃ i : Nat, i < rp.length ∧ rp[i]? ≠ ep[i]?) → c = 2) ∧
      (crc15 rp ≠ rcrc → rp.length = ep.length → (∀ i : Nat, i < rp.length → rp[i]? = ep[i]?) → c = 1)

/-- R80 (b): all-zero payloads have CRC 0, and leading zero bytes do not change the CRC of what follows them. -/
def Obligations.LeadingZeroBytesLeaveTheCrc : Prop :=
  ∀ (k : Nat) (p : List Byte), crc15 (List.replicate k 0#8) = 0#15 ∧ crc15 (List.replicate k 0#8 ++ p) = crc15 p

/-- R80 (c): the CRC is linear over GF(2) for payloads of equal length. -/
def Obligations.CrcIsLinear : Prop :=
  ∀ a b : List Byte, a.length = b.length →
    crc15 (List.zipWith (fun x y => x ^^^ y) a b) = crc15 a ^^^ crc15 b

/-- R80 (d): payloads of equal length that differ in exactly one bit have different CRCs. -/
def Obligations.CrcDetectsEverySingleBitDifference : Prop :=
  ∀ (p : List Byte) (i j : Nat) (h : i < p.length), j < 8 →
    crc15 (p.set i (p[i] ^^^ BitVec.twoPow 8 j)) ≠ crc15 p

/-! ## The payload and the table (R14, R27 to R33) -/

/-- R28: where each bit of the payload integer lives, under both byte orders: its byte, its bit in the byte, and the
payload bit number `PhysBit` gives it, which is eight times the one plus the other. -/
def Obligations.PayloadBitLivesWhereStated : Prop :=
  ∀ (p : List Byte) (k : Nat), k < 8 * p.length →
    physBit .littleEndian p.length k = 8 * (k / 8) + k % 8 ∧
    physBit .bigEndian p.length k = 8 * (p.length - 1 - k / 8) + k % 8 ∧
    (∃ h : k / 8 < p.length, (payloadInt .littleEndian p).testBit k = (p[k / 8]).getLsbD (k % 8)) ∧
    (∃ h : p.length - 1 - k / 8 < p.length,
      (payloadInt .bigEndian p).testBit k = (p[p.length - 1 - k / 8]).getLsbD (k % 8))

/-- R27: the payload integer of `L` bytes has `8*L` bits, and `PayloadBytes` is its inverse. -/
def Obligations.PayloadBytesInvertsPayloadInt : Prop :=
  ∀ (o : ByteOrder),
    (∀ p : List Byte, payloadInt o p < 2 ^ (8 * p.length) ∧ payloadBytes o (payloadInt o p) p.length = p) ∧
    (∀ v len : Nat, v < 2 ^ (8 * len) → payloadInt o (payloadBytes o v len) = v)

/-- R30: the field written reads back, the payload keeps its length, and every bit of the payload integer outside the
field, so every field that does not overlap it, is kept. -/
def Obligations.InsertReplacesExactlyItsField : Prop :=
  ∀ (o : ByteOrder) (p : List Byte) (s n v : Nat), 1 ≤ n → n ≤ 64 → s + n ≤ 8 * p.length → v < 2 ^ n →
    (insertField o p s n v).length = p.length ∧
    extractField o (insertField o p s n v) s n = v ∧
    (∀ k, k < s ∨ s + n ≤ k → (payloadInt o (insertField o p s n v)).testBit k = (payloadInt o p).testBit k) ∧
    (∀ s2 n2, s2 + n2 ≤ s ∨ s + n ≤ s2 → extractField o (insertField o p s n v) s2 n2 = extractField o p s2 n2)

/-- R28, R31, written out: the number of the payload bit that bit `a` of a layout occupies in a frame of `dlen` bytes. -/
def Sys2Proof.Safety.occupiedBit (l : SignalLayout) (dlen a : Nat) : Nat :=
  let k := l.startBit.toNat + a
  match l.byteOrder with
  | .littleEndian => 8 * (k / 8) + k % 8
  | .bigEndian => 8 * (dlen - 1 - k / 8) + k % 8

/-- R14: `CheckDescriptor` is Ok exactly when every entry meets the four conditions, the fourth on the payload bits
of R31, whose numbers are written out from R28 and not the model's own. -/
def Obligations.CheckDescriptorMeansItsConditions : Prop :=
  ∀ d : DescTable,
    (checkDescriptor d = .ok ↔ ∀ kv ∈ d,
      kv.2.dlen ≤ 8 ∧
      (∀ s ∈ kv.2.signals, 1 ≤ s.bitLength.toNat ∧ s.bitLength.toNat ≤ 64 ∧
        s.startBit.toNat + s.bitLength.toNat ≤ 8 * kv.2.dlen) ∧
      (∀ (i j : Nat) (hi : i < kv.2.signals.length) (hj : j < kv.2.signals.length), i ≠ j →
        ∀ a b : Nat, a < (kv.2.signals[i]).bitLength.toNat → b < (kv.2.signals[j]).bitLength.toNat →
          occupiedBit kv.2.signals[i] kv.2.dlen a ≠ occupiedBit kv.2.signals[j] kv.2.dlen b))

/-- R14, consequences: a checked entry has at most `8 * dlen`, so at most 64, signals, and none when `dlen` is 0. -/
def Obligations.CheckedEntryHasAtMostOneSignalPerBit : Prop :=
  ∀ (d : DescTable) (id : Word) (e : Entry), checkDescriptor d = .ok → lookup d id = some e →
    e.signals.length ≤ 8 * e.dlen ∧ e.signals.length ≤ 64 ∧ (e.dlen = 0 → e.signals = [])

/-- R33: `Lookup` gives the entry of a key of the map, and `none` exactly when no key equals the id. -/
def Obligations.LookupFindsTheEntryOfTheId : Prop :=
  ∀ (d : DescTable) (id : Word), isMap d = true →
    (∀ e, lookup d id = some e ↔ (id, e) ∈ d) ∧ (lookup d id = none ↔ ∀ e, (id, e) ∉ d)

/-! ## The Frame Codec (R60 to R65) -/

/-- R60, R62: DECODE completes in every state of a block: UnknownFrameId; or TruncatedPayload when some signal does
not lie inside the bytes received; or every signal of the entry, in order, with its raw field of the payload integer,
its physical value by the two rounded operations, any NaN pattern standing for a NaN (V1, log entry 2), and its unit.
-/
def Obligations.DecodeResult : Prop :=
  ∀ (s : State) (f : RawFrame), BlockInv s → f.length ≤ 8 →
    (lookup s.desc f.id = none → exec (.decode f) s = .next (s.respond (.error .unknownFrameId))) ∧
    (∀ e, lookup s.desc f.id = some e →
      ((∃ l ∈ e.signals, 8 * f.length < l.startBit.toNat + l.bitLength.toNat) →
        exec (.decode f) s = .next (s.respond (.error .truncatedPayload))) ∧
      ((∀ l ∈ e.signals, l.startBit.toNat + l.bitLength.toNat ≤ 8 * f.length) →
        ∃ sigs : List DecodedSignal,
          (∃ t, exec (.decode f) s = .next t ∧ t.responses = s.responses ++ [(Response.decoded sigs).words] ∧
            t.nodes = s.nodes ∧ t.desc = s.desc ∧ t.inputs = s.inputs) ∧
          sigs.length = e.signals.length ∧
          ∀ (i : Nat) (h : i < sigs.length) (l : SignalLayout), e.signals[i]? = some l →
            (sigs[i]).raw.toNat = payloadInt l.byteOrder f.payload / 2 ^ l.startBit.toNat % 2 ^ l.bitLength.toNat ∧
            (sigs[i]).unit = l.unit ∧
            ofBits (sigs[i]).physical
              = fadd (fmul (u2f (sigs[i]).raw.toNat) (ofBits l.factor)) (ofBits l.offset)))

/-- R60 (a), R33, D7: `extended` is never read by DECODE. -/
def Obligations.DecodeDoesNotReadExtended : Prop :=
  ∀ (s : State) (f : RawFrame) (b : Bool), exec (.decode { f with extended := b }) s = exec (.decode f) s

/-- A pair of an ENCODE command names a signal of the entry and its value fits, with this raw value (R61). -/
def Sys2Proof.Safety.PairGives (e : Entry) (kv : Byte × F64) (lr : SignalLayout × Nat) : Prop :=
  e.signals[kv.1.toNat]? = some lr.1 ∧ RawIs kv.2 lr.1 lr.2

/-- R61: ENCODE completes in every state of a block: UnknownFrameId; or the first pair in operand order that fails
decides, UnknownSignal before ValueOutOfRange, whatever pairs follow; or the all-zero payload of the declared length
with the pairs' raw values inserted in operand order, in a frame with the id and `ext` given. The raw values are those
of the tie rule half_even, which R6 gives this hardware (`RawIs`). -/
def Obligations.EncodeResult : Prop :=
  ∀ (s : State) (id : Word) (ext : Bool) (vs : List (Byte × F64)), BlockInv s → vs.length ≤ 255 →
    (lookup s.desc id = none → exec (.encode id ext vs) s = .next (s.respond (.error .unknownFrameId))) ∧
    (∀ e, lookup s.desc id = some e →
      (∀ good bad after done, vs = good ++ bad :: after → List.Forall₂ (PairGives e) good done →
        (e.signals.length ≤ bad.1.toNat → exec (.encode id ext vs) s = .next (s.respond (.error .unknownSignal))) ∧
        (∀ l, e.signals[bad.1.toNat]? = some l → (∀ raw, ¬ RawIs bad.2 l raw) →
          exec (.encode id ext vs) s = .next (s.respond (.error .valueOutOfRange)))) ∧
      (∀ done, List.Forall₂ (PairGives e) vs done →
        exec (.encode id ext vs) s = .next (s.respond (.frame
          { id := id, extended := ext
            payload := done.foldl (fun q lr => insertField lr.1.byteOrder q lr.1.startBit.toNat lr.1.bitLength.toNat lr.2)
              (List.replicate e.dlen 0#8) }))))

/-- R65: DECODE of the frame an ENCODE built gives back, for every signal of the entry, the raw value the last pair that
names it wrote, and 0 for a signal no pair names, under both byte orders and mixed ones. The tie rule is half_even, as
R6 gives it to this hardware. -/
def Obligations.DecodeInvertsEncode : Prop :=
  ∀ (s : State) (id : Word) (ext : Bool) (vs : List (Byte × F64)) (e : Entry) (p : List Byte), BlockInv s →
    vs.length ≤ 255 → lookup s.desc id = some e →
    encodePairs .halfEven e vs (List.replicate e.dlen 0#8) = .ok p →
      exec (.encode id ext vs) s = .next (s.respond (.frame ⟨id, ext, p⟩)) ∧
      ∃ sigs : List DecodedSignal,
        (∃ t, exec (.decode ⟨id, ext, p⟩) s = .next t ∧ t.responses = s.responses ++ [(Response.decoded sigs).words]) ∧
        sigs.length = e.signals.length ∧
        ∀ (k : Nat) (h : k < sigs.length) (l : SignalLayout), e.signals[k]? = some l →
          (∀ before v after, vs = before ++ (BitVec.ofNat 8 k, v) :: after →
            (∀ kv ∈ after, kv.1 ≠ BitVec.ofNat 8 k) → RawIs v l (sigs[k]).raw.toNat) ∧
          ((∀ kv ∈ vs, kv.1 ≠ BitVec.ofNat 8 k) → (sigs[k]).raw.toNat = 0)

/-- R18, R21, frame: the codec and CRC commands read and write no node register, write no table and take nothing more
from the stream; they return one response. Only DECODE draws free NaN values (log entry 2). -/
def Obligations.CodecAndCrcChangeNoRegister : Prop :=
  ∀ (i : Instr) (s t : State), StatelessCommand i → exec i s = .next t →
    t.nodes = s.nodes ∧ t.desc = s.desc ∧ t.inputs = s.inputs ∧ (∃ r, t.responses = s.responses ++ [r]) ∧
      ((∀ f, i ≠ .decode f) → t.draws = s.draws)

/-- R18, R35: the response of a codec or CRC command depends on the table and the operands alone, and not on any node.
(With the same count of free NaN values drawn: log entry 2.) -/
def Obligations.ResponseDependsOnTableAndOperandsAlone : Prop :=
  ∀ (i : Instr) (s s' t : State), StatelessCommand i → BlockInv s → BlockInv s' → s.desc = s'.desc → s.draws = s'.draws →
    exec i s = .next t →
      ∃ t' r, exec i s' = .next t' ∧ t.responses = s.responses ++ [r] ∧ t'.responses = s'.responses ++ [r]

/-! ## The f64 arithmetic (R66 to R73) -/

/-- R66, V1: a bit pattern that is not a NaN is given back by its value, the free value playing no part; a NaN is
shown as a NaN pattern whatever the free value, and every NaN pattern is shown for some free value. -/
def Obligations.BitPatternsAndValuesAgree : Prop :=
  ∀ b d : F64, (ofBits b ≠ .nan → toBits (ofBits b) d = b) ∧
    (ofBits b = .nan → ofBits (toBits .nan d) = .nan ∧ toBits .nan b = b)

/-- R67: the one rounding every operation ends in is correct. In units of `2^-1074` the result is an f64 no farther from
`num / den` than any other f64, and of two equally near the one whose last fraction bit is 0. That from half way past
the largest finite f64 on it is infinite is the standard's rule, which R67 does not list (log entry 9). -/
def Obligations.RoundingIsToNearestEven : Prop :=
  ∀ (neg : Bool) (num den : Nat), 0 < den →
    (roundQuot neg num den = .inf neg ↔ (2 ^ 54 - 1) * 2 ^ 2044 * den ≤ num) ∧
    (num < (2 ^ 54 - 1) * 2 ^ 2044 * den → ∃ mag : Nat, ∃ b : F64,
      roundQuot neg num den = .fin neg mag ∧ ofBits b = .fin neg mag ∧
      ∀ (c : F64) (x : Nat), ofBits c = .fin neg x →
        |(num : Int) - mag * den| ≤ |(num : Int) - x * den| ∧
        (|(num : Int) - mag * den| = |(num : Int) - x * den| → x ≠ mag → b.getLsbD 0 = false))

/-- R67: rounding changes no quotient that is exactly an f64. -/
def Obligations.ExactResultsAreNotRounded : Prop :=
  ∀ (neg : Bool) (b : F64) (mag den : Nat), ofBits b = .fin neg mag → 0 < den →
    roundQuot neg (mag * den) den = .fin neg mag

/-- R67: the four operations on finite values are the exact result rounded once, and the results the rule names: `x/0`
infinite, `0/0`, `inf - inf`, `0 * inf` and `inf/inf` NaNs. The others are the standard's, which R67 takes over without
listing them (log entry 9): the sign of an exact zero sum or difference, `+0` but where both terms are `-0`; the
exclusive or of the signs in a product and a quotient; an infinity with a finite value, or with an infinity of the sign
that makes no NaN; and a NaN operand. Each pair of operands falls under a clause. -/
def Obligations.OperationsRoundTheExactResultOnce : Prop :=
  (∀ (s t : Bool) (a b : Nat),
    (signed s a + signed t b ≠ 0 → fadd (.fin s a) (.fin t b)
      = roundQuot (decide (signed s a + signed t b < 0)) (signed s a + signed t b).natAbs 1) ∧
    (signed s a + signed t b = 0 → fadd (.fin s a) (.fin t b) = .fin (s && t) 0) ∧
    (signed s a - signed t b ≠ 0 → fsub (.fin s a) (.fin t b)
      = roundQuot (decide (signed s a - signed t b < 0)) (signed s a - signed t b).natAbs 1) ∧
    (signed s a - signed t b = 0 → fsub (.fin s a) (.fin t b) = .fin (s && !t) 0) ∧
    fmul (.fin s a) (.fin t b) = roundQuot (s ^^ t) (a * b) fone ∧
    (0 < b → fdiv (.fin s a) (.fin t b) = roundQuot (s ^^ t) (a * fone) b) ∧
    (0 < a → fdiv (.fin s a) (.fin t 0) = .inf (s ^^ t)) ∧ fdiv (.fin s 0) (.fin t 0) = .nan) ∧
  (∀ (s t : Bool) (a : Nat),
    fadd (.inf s) (.fin t a) = .inf s ∧ fadd (.fin t a) (.inf s) = .inf s ∧
    fsub (.inf s) (.fin t a) = .inf s ∧ fsub (.fin t a) (.inf s) = .inf (!s) ∧
    (0 < a → fmul (.inf s) (.fin t a) = .inf (s ^^ t) ∧ fmul (.fin t a) (.inf s) = .inf (t ^^ s)) ∧
    fmul (.inf s) (.fin t 0) = .nan ∧ fmul (.fin t 0) (.inf s) = .nan ∧
    fdiv (.inf s) (.fin t a) = .inf (s ^^ t) ∧ fdiv (.fin t a) (.inf s) = .fin (t ^^ s) 0) ∧
  (∀ s t : Bool,
    fadd (.inf s) (.inf s) = .inf s ∧ fadd (.inf s) (.inf (!s)) = .nan ∧
    fsub (.inf s) (.inf (!s)) = .inf s ∧ fsub (.inf s) (.inf s) = .nan ∧
    fmul (.inf s) (.inf t) = .inf (s ^^ t) ∧ fdiv (.inf s) (.inf t) = .nan) ∧
  (∀ x : FVal, fadd .nan x = .nan ∧ fadd x .nan = .nan ∧ fsub .nan x = .nan ∧ fsub x .nan = .nan ∧
    fmul .nan x = .nan ∧ fmul x .nan = .nan ∧ fdiv .nan x = .nan ∧ fdiv x .nan = .nan)

/-- R68: `U2F` of every `raw` below `2^64` is the one rounding of R67 of that integer, so it is finite, no f64 is nearer
to `raw`, and of two equally near it is the one whose last fraction bit is 0; and it is exact where `raw` has at most
53 significant bits, so for every `raw` below `2^53`. -/
def Obligations.ConversionIsToNearestEvenAndExactTo53Bits : Prop :=
  (∀ raw : Nat, raw < 2 ^ 64 →
    u2f raw = roundQuot false (raw * fone) 1 ∧
    ∃ mag : Nat, ∃ b : F64, u2f raw = .fin false mag ∧ ofBits b = .fin false mag ∧
      ∀ (c : F64) (x : Nat), ofBits c = .fin false x →
        |(raw * fone : Int) - mag| ≤ |(raw * fone : Int) - x| ∧
        (|(raw * fone : Int) - mag| = |(raw * fone : Int) - x| → x ≠ mag → b.getLsbD 0 = false)) ∧
  (∀ m k : Nat, m ≤ 2 ^ 53 → m * 2 ^ k < 2 ^ 64 → u2f (m * 2 ^ k) = .fin false (m * 2 ^ k * fone))

/-- R69: `RoundInt` gives the nearest integer with the sign kept; at a tie the even one, or under `half_away` the one
farther from zero; infinities and NaNs stay, and every f64 of magnitude `2^52` or more is its own rounding. -/
def Obligations.RoundIntIsTheNearestInteger : Prop :=
  ∀ ties : TieRule,
    roundInt ties .nan = .nan ∧ (∀ neg, roundInt ties (.inf neg) = .inf neg) ∧
    (∀ (neg : Bool) (mag : Nat), ∃ n : Nat, roundInt ties (.fin neg mag) = .fin neg (n * fone) ∧
      2 * |(n * fone : Int) - mag| ≤ fone ∧
      (2 * |(n * fone : Int) - mag| = fone →
        match ties with
        | .halfEven => n % 2 = 0
        | .halfAway => mag < n * fone)) ∧
    (∀ (b : F64) (neg : Bool) (mag : Nat), ofBits b = .fin neg mag → 2 ^ 52 * fone ≤ mag →
      roundInt ties (ofBits b) = ofBits b)

/-- R70: of the integer-valued f64s that are not negative, those that fit 64 bits are the ones whose pattern is at most
`0x43EFFFFFFFFFFFFF`; NaN, infinities and negative integers fit no field, and `-0` fits every field. -/
def Obligations.FitsIsTheUnsignedRange : Prop :=
  (∀ (b : F64) (k n : Nat), ofBits b = .fin false (k * fone) → 1 ≤ n → n ≤ 64 →
    ((fits (ofBits b) n = true ↔ k ≤ 2 ^ n - 1) ∧
      (fits (ofBits b) 64 = true ↔ b.toNat ≤ 0x43EFFFFFFFFFFFFF) ∧
      (fits (ofBits b) n = true → toInteger (ofBits b) = k))) ∧
  (∀ n : Nat, fits .nan n = false ∧ (∀ neg, fits (.inf neg) n = false) ∧ fits (.fin true 0) n = true ∧
    ∀ mag, 0 < mag → fits (.fin true mag) n = false)

/-- R63, R61, R70: the raw integer of a value is `RoundInt((v - offset) / factor)` where that is an integer from 0 to
`2^bit_length - 1`, `-0` being 0, and there is none otherwise. -/
def Obligations.RawValueIsTheRoundedQuotient : Prop :=
  ∀ (ties : TieRule) (v : F64) (l : SignalLayout) (raw : Nat),
    rawOf ties v l = some raw ↔
      ∃ neg, roundInt ties (fdiv (fsub (ofBits v) (ofBits l.offset)) (ofBits l.factor)) = .fin neg (raw * fone) ∧
        (neg = true → raw = 0) ∧ raw < 2 ^ l.bitLength.toNat

/-- R73, R61: a value that fits gives a raw integer of the signal's field, below `2^bit_length`. -/
def Obligations.AcceptedRawValueFitsItsField : Prop :=
  ∀ (ties : TieRule) (v : F64) (l : SignalLayout) (raw : Nat), rawOf ties v l = some raw →
    raw < 2 ^ l.bitLength.toNat

/-- R73: ENCODE refuses every value of a signal whose factor is a zero or a NaN or whose offset is a NaN, and every value
that is a NaN or an infinity; under an infinite factor it takes a value as 0 where the difference is finite and refuses
it otherwise (log entry 12). DECODE of a zero factor gives the offset, numerically, an infinite one too; of a NaN factor
or offset a NaN; and of an infinite factor a NaN for raw 0 and the infinity otherwise, but for an infinite offset of the
other sign, with which the sum is `inf - inf`, a NaN (R67; log entry 12). -/
def Obligations.SpecialFactorsBehaveAsStated : Prop :=
  ∀ (ties : TieRule) (v : F64) (l : SignalLayout) (raw : Nat), raw < 2 ^ 64 →
    ((∃ neg, ofBits l.factor = .fin neg 0) → rawOf ties v l = none ∧
      (∀ neg mag, ofBits l.offset = .fin neg mag → ∃ neg', (0 < mag → neg' = neg) ∧ phys raw l = .fin neg' mag) ∧
      (∀ neg, ofBits l.offset = .inf neg → phys raw l = .inf neg)) ∧
    ((ofBits l.factor = .nan ∨ ofBits l.offset = .nan) → rawOf ties v l = none ∧ phys raw l = .nan) ∧
    (ofBits v = .nan → rawOf ties v l = none) ∧
    (∀ neg, ofBits v = .inf neg → rawOf ties v l = none) ∧
    (∀ neg, ofBits l.factor = .inf neg →
      (∀ neg' mag, fsub (ofBits v) (ofBits l.offset) = .fin neg' mag → rawOf ties v l = some 0) ∧
      ((∀ neg' mag, fsub (ofBits v) (ofBits l.offset) ≠ .fin neg' mag) → rawOf ties v l = none) ∧
      phys 0 l = .nan ∧
      (0 < raw →
        (∀ neg' mag, ofBits l.offset = .fin neg' mag → phys raw l = .inf neg) ∧
        (ofBits l.offset = .inf neg → phys raw l = .inf neg) ∧
        (ofBits l.offset = .inf (!neg) → phys raw l = .nan)))

/-- R53, R6: the pseudo-instructions are ON_FAILURE with the conventional increments 8 and 1, and so are their words. -/
def Obligations.PseudoInstructionsAreOnFailure : Prop :=
  ∀ n : NodeIx, Instr.txFail n = .onFailure n 8#16 ∧ Instr.rxFail n = .onFailure n 1#16 ∧
    (encode (.txFail n)).map BitVec.toNat = [0x21000008 + 65536 * n.val] ∧
    (encode (.rxFail n)).map BitVec.toNat = [0x21000001 + 65536 * n.val]
end

