-- ==== Sys2Proof/Laws/Decode.lean ====
section
/-! SUPPORT. The fields of the headers the encoder writes, the packing and unpacking of payloads and values, and how the
decoder reads a command whose words are followed by others. -/

namespace Sys2Proof

/-! ## Header fields -/

section Headers

variable (c : Byte) (e : Bool) (l l' : BitVec 4) (n : BitVec 8) (x : BitVec 15) (y : BitVec 16)

theorem opc_headerF : opc (c ++ 0#15 ++ bit e ++ 0#4 ++ l : BitVec (8 + 15 + 1 + 4 + 4)) = c := by
  simp only [opc, BitVec.extractLsb'_append_eq_of_le, Nat.reduceLeDiff, Nat.reduceSub, BitVec.extractLsb'_eq_self]

theorem reservedHigh_headerF :
    BitVec.extractLsb' 9 15 (c ++ 0#15 ++ bit e ++ 0#4 ++ l : BitVec (8 + 15 + 1 + 4 + 4)) = 0#15 := by
  simp only [BitVec.extractLsb'_append_eq_of_le, BitVec.extractLsb'_append_eq_of_add_le, Nat.reduceLeDiff, Nat.reduceSub]
  rfl

theorem reservedLow_headerF :
    BitVec.extractLsb' 4 4 (c ++ 0#15 ++ bit e ++ 0#4 ++ l : BitVec (8 + 15 + 1 + 4 + 4)) = 0#4 := by
  simp only [BitVec.extractLsb'_append_eq_of_le, BitVec.extractLsb'_append_eq_of_add_le, Nat.reduceLeDiff, Nat.reduceSub]
  rfl

theorem len_headerF : BitVec.extractLsb' 0 4 (c ++ 0#15 ++ bit e ++ 0#4 ++ l : BitVec (8 + 15 + 1 + 4 + 4)) = l := by
  simp only [BitVec.extractLsb'_append_eq_right]

theorem ext_headerF : BitVec.getLsbD (c ++ 0#15 ++ bit e ++ 0#4 ++ l : BitVec (8 + 15 + 1 + 4 + 4)) 8 = e := by
  simp only [bit, BitVec.getLsbD_append]
  simp

theorem opc_headerE : opc (c ++ 0#15 ++ bit e ++ n : BitVec (8 + 15 + 1 + 8)) = c := by
  simp only [opc, BitVec.extractLsb'_append_eq_of_le, Nat.reduceLeDiff, Nat.reduceSub, BitVec.extractLsb'_eq_self]

theorem reserved_headerE : BitVec.extractLsb' 9 15 (c ++ 0#15 ++ bit e ++ n : BitVec (8 + 15 + 1 + 8)) = 0#15 := by
  simp only [BitVec.extractLsb'_append_eq_of_le, BitVec.extractLsb'_append_eq_of_add_le, Nat.reduceLeDiff, Nat.reduceSub]
  rfl

theorem nsig_headerE : nsig (c ++ 0#15 ++ bit e ++ n : BitVec (8 + 15 + 1 + 8)) = n.toNat := by
  simp only [nsig, BitVec.extractLsb'_append_eq_right]

theorem ext_headerE : BitVec.getLsbD (c ++ 0#15 ++ bit e ++ n : BitVec (8 + 15 + 1 + 8)) 8 = e := by
  simp only [bit, BitVec.getLsbD_append]
  simp

theorem opc_headerP : opc (c ++ 0#20 ++ l : BitVec (8 + 20 + 4)) = c := by
  simp only [opc, BitVec.extractLsb'_append_eq_of_le, Nat.reduceLeDiff, Nat.reduceSub, BitVec.extractLsb'_eq_self]

theorem reserved_headerP : BitVec.extractLsb' 4 20 (c ++ 0#20 ++ l : BitVec (8 + 20 + 4)) = 0#20 := by
  simp only [BitVec.extractLsb'_append_eq_of_le, BitVec.extractLsb'_append_eq_of_add_le, Nat.reduceLeDiff, Nat.reduceSub]
  rfl

theorem len_headerP : BitVec.extractLsb' 0 4 (c ++ 0#20 ++ l : BitVec (8 + 20 + 4)) = l := by
  simp only [BitVec.extractLsb'_append_eq_right]

theorem opc_headerC : opc (c ++ l ++ l' ++ 0#1 ++ x : BitVec (8 + 4 + 4 + 1 + 15)) = c := by
  simp only [opc, BitVec.extractLsb'_append_eq_of_le, Nat.reduceLeDiff, Nat.reduceSub, BitVec.extractLsb'_eq_self]

theorem elen_headerC : BitVec.extractLsb' 20 4 (c ++ l ++ l' ++ 0#1 ++ x : BitVec (8 + 4 + 4 + 1 + 15)) = l := by
  simp only [BitVec.extractLsb'_append_eq_of_le, Nat.reduceLeDiff, Nat.reduceSub, BitVec.extractLsb'_append_eq_right]

theorem rlen_headerC : BitVec.extractLsb' 16 4 (c ++ l ++ l' ++ 0#1 ++ x : BitVec (8 + 4 + 4 + 1 + 15)) = l' := by
  simp only [BitVec.extractLsb'_append_eq_of_le, Nat.reduceLeDiff, Nat.reduceSub, BitVec.extractLsb'_append_eq_right]

theorem crc_headerC : BitVec.extractLsb' 0 15 (c ++ l ++ l' ++ 0#1 ++ x : BitVec (8 + 4 + 4 + 1 + 15)) = x := by
  simp only [BitVec.extractLsb'_append_eq_right]

theorem reserved_headerC : BitVec.getLsbD (c ++ l ++ l' ++ 0#1 ++ x : BitVec (8 + 4 + 4 + 1 + 15)) 15 = false := by
  simp only [BitVec.getLsbD_append]
  simp

theorem opc_headerN : opc (c ++ n ++ y : BitVec (8 + 8 + 16)) = c := by
  simp only [opc, BitVec.extractLsb'_append_eq_of_le, Nat.reduceLeDiff, Nat.reduceSub, BitVec.extractLsb'_eq_self]

theorem node_headerN : BitVec.extractLsb' 16 8 (c ++ n ++ y : BitVec (8 + 8 + 16)) = n := by
  simp only [BitVec.extractLsb'_append_eq_of_le, Nat.reduceLeDiff, Nat.reduceSub, BitVec.extractLsb'_append_eq_right]

theorem imm_headerN : imm (c ++ n ++ y : BitVec (8 + 8 + 16)) = y := by
  simp only [imm, BitVec.extractLsb'_append_eq_right]

/-- `NODE` of a header the encoder writes is the node. -/
theorem nodeField_headerN (m : NodeIx) :
    nodeField (c ++ BitVec.ofNat 8 m.val ++ y : BitVec (8 + 8 + 16)) = .ok m := by
  have hm : m.val % 2 ^ 8 = m.val := Nat.mod_eq_of_lt (Nat.lt_trans m.isLt (by decide))
  simp only [nodeField, node_headerN, BitVec.toNat_ofNat, hm, m.isLt, dite_true]

end Headers

@[simp] theorem Opcode.ofCode_code (op : Opcode) : Opcode.ofCode op.code = some op := by
  cases op <;> decide

/-- A value of `OPC` that names an opcode is its code. -/
theorem Opcode.code_of_ofCode {b : Byte} {op : Opcode} (h : Opcode.ofCode b = some op) : b = op.code := by
  unfold Opcode.ofCode at h
  split_ifs at h <;> cases h <;> assumption

/-! ## Well-formedness as propositions -/

theorem payloadOk_iff (p : List Byte) : payloadOk p = true ↔ p.length ≤ 8 := by
  simp [payloadOk, show Config.payloadMax = 8 from rfl]

theorem wellFormed_encode_iff (id : Word) (ext : Bool) (vs : List (Byte × F64)) :
    (Instr.encode id ext vs).wellFormed = true ↔ vs.length ≤ 255 := by
  simp [Instr.wellFormed, show Config.maxPairs = 255 from rfl]

theorem wellFormed_decode_iff (f : RawFrame) : (Instr.decode f).wellFormed = true ↔ f.payload.length ≤ 8 :=
  payloadOk_iff f.payload

theorem wellFormed_crcCompute_iff (p : List Byte) : (Instr.crcCompute p).wellFormed = true ↔ p.length ≤ 8 :=
  payloadOk_iff p

theorem wellFormed_crcClassify_iff (r : List Byte) (c : BitVec 15) (e : List Byte) :
    (Instr.crcClassify r c e).wellFormed = true ↔ r.length ≤ 8 ∧ e.length ≤ 8 := by
  simp [Instr.wellFormed, payloadOk_iff]

/-! ## Packing (R43) -/

theorem lanes_append_lanes (b0 b1 b2 b3 : Byte) : lanes (b3 ++ b2 ++ b1 ++ b0 : BitVec (8 + 8 + 8 + 8)) = [b0, b1, b2, b3] := by
  simp only [lanes, BitVec.extractLsb'_append_eq_of_le, Nat.reduceLeDiff, Nat.reduceSub,
    BitVec.extractLsb'_append_eq_right, BitVec.extractLsb'_eq_self]

/-- The lanes of `PLO` and `PHI` are the bytes of the payload, then zeros. -/
theorem lanes_payload (p : List Byte) : lanes (payloadLo p) ++ lanes (payloadHi p) = (List.range 8).map (lane p) := by
  simp only [payloadLo, payloadHi, lanes_append_lanes]
  rfl

/-- A payload of up to 8 bytes comes back from its two words. -/
theorem unpackPayload_payload {p : List Byte} (h : p.length ≤ 8) :
    unpackPayload p.length (payloadLo p) (payloadHi p) = p := by
  apply List.ext_getElem
  · simp [unpackPayload, lanes_payload, h]
  · intro i h1 h2
    simp [unpackPayload, lanes_payload, lane, h2]

theorem length_unpackPayload {n : Nat} (h : n ≤ 8) (lo hi : Word) : (unpackPayload n lo hi).length = n := by
  simp [unpackPayload, lanes, h]

/-- Byte `j` of an unpacked payload is byte lane `j` of its two words (R43 a). -/
theorem getElem_unpackPayload {len : Nat} (lo hi : Word) (hl : len ≤ 8) (j : Nat) (h : j < (unpackPayload len lo hi).length) :
    (unpackPayload len lo hi)[j] = if j < 4 then lo.extractLsb' (8 * j) 8 else hi.extractLsb' (8 * (j - 4)) 8 := by
  have hj : j < 8 := by rw [length_unpackPayload hl] at h; omega
  simp only [unpackPayload, List.getElem_take]
  interval_cases j <;> rfl

/-- The two words of a 64-bit value make it again. -/
@[simp] theorem hiWord_append_loWord (v : BitVec 64) : (hiWord v ++ loWord v : BitVec (32 + 32)) = v :=
  BitVec.extractLsb'_append_extractLsb' (w := 32) (len := 32) (x := v)

theorem lenField_toNat {p : List Byte} (h : p.length ≤ 8) : (lenField p).toNat = p.length := by
  simp only [lenField, BitVec.toNat_ofNat]
  omega

/-- The pairs of format E come back from their words, whatever follows. -/
theorem decodePairs_flatMap (vs : List (Byte × F64)) (rest : List Word) :
    decodePairs vs.length (vs.flatMap encodePair ++ rest) = some vs := by
  induction vs with
  | nil => rfl
  | cons kv vs ih =>
    obtain ⟨k, v⟩ := kv
    have h1 : BitVec.extractLsb' 8 24 (0#24 ++ k : BitVec (24 + 8)) = 0#24 := by
      simp only [BitVec.extractLsb'_append_eq_left]
    have h2 : BitVec.extractLsb' 0 8 (0#24 ++ k : BitVec (24 + 8)) = k := by
      simp only [BitVec.extractLsb'_append_eq_right]
    have h3 : hiWord v ++ loWord v = v := hiWord_append_loWord v
    simp only [List.flatMap_cons, encodePair, List.cons_append, List.nil_append, List.length_cons, decodePairs, h1, h2, h3,
      if_true, ih, Option.map_some]

/-- The pairs are read from the first `3 * n` words alone. -/
theorem decodePairs_take (n : Nat) (ws : List Word) : decodePairs n (ws.take (3 * n)) = decodePairs n ws := by
  induction n generalizing ws with
  | zero => rfl
  | succ n ih =>
    match ws with
    | [] => rfl
    | [_] => rfl
    | [_, _] => rfl
    | k :: lo :: hi :: rest =>
      have : 3 * (n + 1) = 3 * n + 1 + 1 + 1 := by omega
      simp only [this, List.take_succ_cons, decodePairs, ih]

/-! ## The decoder on a command followed by other words -/

/-- A command whose words are all there, and no more of them than its header asks for, is read without what follows. -/
theorem decode_cons_append {w0 : Word} {args : List Word} (rest : List Word) (h : commandLength w0 = args.length + 1) :
    decode (w0 :: args ++ rest) =
      match decodeComplete w0 args with
      | .ok i => .command i (commandLength w0)
      | .error e => .illegal e (commandLength w0) := by
  have h1 : ¬ (args ++ rest).length + 1 < commandLength w0 := by simp [h]
  have h2 : (args ++ rest).take (commandLength w0 - 1) = args := by simp [h]
  cases h3 : decodeComplete w0 args <;> simp only [List.cons_append, decode, h1, if_false, h2, h3]

/-- What the decoder has read when it answers with a command or an illegal one. -/
theorem decode_cases (ws : List Word) :
    (decode ws = .incomplete ∧ (∀ w0, ws.head? = some w0 → ws.length < commandLength w0)) ∨
      ∃ w0 args rest, ws = w0 :: (args ++ rest) ∧ args.length + 1 = commandLength w0 ∧
        ((∃ i, decodeComplete w0 args = .ok i ∧ decode ws = .command i (commandLength w0)) ∨
          (∃ e, decodeComplete w0 args = .error e ∧ decode ws = .illegal e (commandLength w0))) := by
  cases ws with
  | nil => exact .inl ⟨rfl, by simp⟩
  | cons w0 args =>
    by_cases h : args.length + 1 < commandLength w0
    · refine .inl ⟨by simp [decode, h], fun w hw => ?_⟩
      obtain rfl : w0 = w := by simpa using hw
      simpa using h
    · have hpos : 0 < commandLength w0 := by
        unfold commandLength
        split <;> omega
      refine .inr ⟨w0, args.take (commandLength w0 - 1), args.drop (commandLength w0 - 1), by simp, ?_, ?_⟩
      · simp only [List.length_take]
        omega
      · simp only [decode, h, if_false]
        cases hd : decodeComplete w0 (args.take (commandLength w0 - 1)) with
        | ok i => exact .inl ⟨i, rfl, rfl⟩
        | error e => exact .inr ⟨e, rfl, rfl⟩

end Sys2Proof
end

