-- ==== Sys2Proof/Laws/State.lean ====
section
/-! SUPPORT. One lemma per field per update of State, and how `State.node` and `State.valid` see each update. -/

namespace Sys2Proof.Machine

variable (s : State)

/-! ## setNode -/

@[simp] theorem State.setNode_nodes (n : NodeIx) (r : NodeRegs) : (s.setNode n r).nodes = s.nodes.set n.val r := rfl
@[simp] theorem State.setNode_desc (n : NodeIx) (r : NodeRegs) : (s.setNode n r).desc = s.desc := rfl
@[simp] theorem State.setNode_inputs (n : NodeIx) (r : NodeRegs) : (s.setNode n r).inputs = s.inputs := rfl
@[simp] theorem State.setNode_responses (n : NodeIx) (r : NodeRegs) : (s.setNode n r).responses = s.responses := rfl
@[simp] theorem State.setNode_draws (n : NodeIx) (r : NodeRegs) : (s.setNode n r).draws = s.draws := rfl

/-! ## respond -/

@[simp] theorem State.respond_nodes (r : Response) : (s.respond r).nodes = s.nodes := rfl
@[simp] theorem State.respond_desc (r : Response) : (s.respond r).desc = s.desc := rfl
@[simp] theorem State.respond_inputs (r : Response) : (s.respond r).inputs = s.inputs := rfl
@[simp] theorem State.respond_responses (r : Response) : (s.respond r).responses = s.responses ++ [r.words] := rfl
@[simp] theorem State.respond_draws (r : Response) : (s.respond r).draws = s.draws := rfl

/-! ## draw -/

@[simp] theorem State.draw_nodes (k : Nat) : (s.draw k).nodes = s.nodes := rfl
@[simp] theorem State.draw_desc (k : Nat) : (s.draw k).desc = s.desc := rfl
@[simp] theorem State.draw_inputs (k : Nat) : (s.draw k).inputs = s.inputs := rfl
@[simp] theorem State.draw_responses (k : Nat) : (s.draw k).responses = s.responses := rfl
@[simp] theorem State.draw_draws (k : Nat) : (s.draw k).draws = s.draws + k := rfl

/-! ## consume -/

@[simp] theorem State.consume_nodes (k : Nat) : (s.consume k).nodes = s.nodes := rfl
@[simp] theorem State.consume_desc (k : Nat) : (s.consume k).desc = s.desc := rfl
@[simp] theorem State.consume_inputs (k : Nat) : (s.consume k).inputs = s.inputs.drop k := rfl
@[simp] theorem State.consume_responses (k : Nat) : (s.consume k).responses = s.responses := rfl
@[simp] theorem State.consume_draws (k : Nat) : (s.consume k).draws = s.draws := rfl

/-! ## resetNodes -/

@[simp] theorem State.resetNodes_nodes : (s.resetNodes).nodes = Vector.replicate Config.nNodes NodeRegs.reset := rfl
@[simp] theorem State.resetNodes_desc : (s.resetNodes).desc = s.desc := rfl
@[simp] theorem State.resetNodes_inputs : (s.resetNodes).inputs = s.inputs := rfl
@[simp] theorem State.resetNodes_responses : (s.resetNodes).responses = s.responses := rfl
@[simp] theorem State.resetNodes_draws : (s.resetNodes).draws = s.draws := rfl

/-! ## Reading a node after an update -/

@[simp] theorem State.node_setNode_self (n : NodeIx) (r : NodeRegs) : (s.setNode n r).node n = r := by
  simp [State.node]

theorem State.node_setNode_of_ne {n m : NodeIx} (r : NodeRegs) (h : m ≠ n) : (s.setNode n r).node m = s.node m := by
  have : n.val ≠ m.val := fun e => h (Fin.ext e.symm)
  simp [State.node, this]

theorem State.node_setNode (n m : NodeIx) (r : NodeRegs) :
    (s.setNode n r).node m = if m = n then r else s.node m := by
  split
  · next h => subst h; simp
  · next h => exact s.node_setNode_of_ne r h

@[simp] theorem State.node_respond (r : Response) (n : NodeIx) : (s.respond r).node n = s.node n := rfl
@[simp] theorem State.node_draw (k : Nat) (n : NodeIx) : (s.draw k).node n = s.node n := rfl
@[simp] theorem State.node_consume (k : Nat) (n : NodeIx) : (s.consume k).node n = s.node n := rfl
@[simp] theorem State.node_resetNodes (n : NodeIx) : s.resetNodes.node n = NodeRegs.reset := by
  simp [State.node]

/-- Writing a node's own registers back changes nothing. -/
@[simp] theorem State.setNode_node (n : NodeIx) : s.setNode n (s.node n) = s := by
  simp [State.setNode, State.node]

/-! ## The invariant of a block that exists -/

/-- `valid` says that the table can be constructed from and that every node's registers are reachable ones. -/
theorem State.valid_iff : s.valid = true ↔ tableOk s.desc = true ∧ ∀ n : NodeIx, (s.node n).ok = true := by
  simp only [State.valid, Bool.and_eq_true, List.all_eq_true, Vector.mem_toList_iff, State.node]
  refine and_congr_right fun _ => ⟨fun h n => h _ (Vector.getElem_mem n.isLt), fun h r hr => ?_⟩
  obtain ⟨i, hi, rfl⟩ := Vector.getElem_of_mem hr
  exact h ⟨i, hi⟩

/-- Validity looks at the nodes and the table alone. -/
theorem State.valid_congr {s t : State} (hn : t.nodes = s.nodes) (hd : t.desc = s.desc) : t.valid = s.valid := by
  simp [State.valid, hn, hd]

theorem State.valid_setNode {n : NodeIx} {r : NodeRegs} (h : s.valid = true) (hr : r.ok = true) :
    (s.setNode n r).valid = true := by
  rw [State.valid_iff] at h ⊢
  refine ⟨h.1, fun m => ?_⟩
  rw [State.node_setNode]
  split
  · exact hr
  · exact h.2 m

@[simp] theorem State.valid_respond (r : Response) : (s.respond r).valid = s.valid := rfl
@[simp] theorem State.valid_draw (k : Nat) : (s.draw k).valid = s.valid := rfl
@[simp] theorem State.valid_consume (k : Nat) : (s.consume k).valid = s.valid := rfl

end Sys2Proof.Machine
end

