-- ==== Sys2Proof/Laws/Ops.lean ====
section
/-! SUPPORT. What the shared operations can do, each said once: the check that a block exists, obeying a command,
ending with an error, waiting and the reset input. -/

namespace Sys2Proof.Machine

/-- A block that exists runs the body. -/
theorem onBlock_of_valid {s : State} (h : s.valid = true) (body : Result) : onBlock s body = body := by
  simp only [State.valid, Bool.and_eq_true] at h
  simp [onBlock, h.1, h.2]

/-- Only a block that exists answers, and then with what the body answers. -/
theorem onBlock_next {s t : State} {body : Result} (h : onBlock s body = .next t) :
    s.valid = true ∧ body = .next t := by
  unfold onBlock at h
  split at h
  · split at h
    · exact ⟨by simp_all [State.valid], h⟩
    · cases h
  · cases h

/-- Where no block exists the step is refused, by one of two names. -/
theorem onBlock_of_not_valid {s : State} (h : s.valid ≠ true) (body : Result) :
    onBlock s body = .refused (if tableOk s.desc then .unreachableNodeState else .configurationError) := by
  unfold onBlock
  split
  · split
    · exact absurd (by simp_all [State.valid]) h
    · rfl
  · rfl

/-- A legal command of a block that exists is its body. -/
theorem obey_of_valid {i : Instr} {s : State} (h : s.valid = true) (hi : i.wellFormed = true) (body : Result) :
    obey i s body = body := by
  simp [obey, onBlock_of_valid h, hi]

/-- What obeying a command can answer: the body's answer, or ILLEGAL for operands no command can carry. -/
theorem obey_next {i : Instr} {s t : State} {body : Result} (h : obey i s body = .next t) :
    s.valid = true ∧ ((i.wellFormed = true ∧ body = .next t) ∨
      (i.wellFormed = false ∧ t = s.respond (.error .illegal))) := by
  obtain ⟨hv, hb⟩ := onBlock_next h
  refine ⟨hv, ?_⟩
  split at hb
  · exact .inl ⟨‹_›, hb⟩
  · exact .inr ⟨by simp_all, by simpa [raise] using hb.symm⟩

/-- An error answers with its code and changes nothing else. -/
theorem raise_next {rc : ResultCode} {s t : State} (h : raise rc s = .next t) : t = s.respond (.error rc) := by
  simpa [raise] using h.symm

/-- A node command writes one node and answers with it. -/
theorem finishNode_next {n : NodeIx} {x : NodeResult} {s t : State} (h : finishNode n x s = .next t) :
    t = (s.setNode n x.regs).respond (.node x.rc x.ev x.bo x.regs) := by
  simpa [finishNode] using h.symm

/-- The illegal command: the block exists, and the answer is ILLEGAL alone. -/
theorem execIllegal_next {s t : State} (h : execIllegal s = .next t) :
    s.valid = true ∧ t = s.respond (.error .illegal) := by
  obtain ⟨hv, hb⟩ := onBlock_next h
  exact ⟨hv, raise_next hb⟩

/-! ## The command stream -/

@[simp] theorem leadingWords_map_word_append (ws : List Word) (rest : List HostInput) :
    leadingWords (ws.map .word ++ rest) = ws ++ leadingWords rest := by
  induction ws with
  | nil => rfl
  | cons w ws ih => simp [leadingWords, ih]

@[simp] theorem afterWords_map_word_append (ws : List Word) (rest : List HostInput) :
    afterWords (ws.map .word ++ rest) = afterWords rest := by
  induction ws with
  | nil => rfl
  | cons w ws ih => simp [afterWords, ih]

/-- The stream is its leading words, then what follows them. -/
theorem leadingWords_append_afterWords (xs : List HostInput) :
    (leadingWords xs).map .word ++ afterWords xs = xs := by
  induction xs with
  | nil => rfl
  | cons x xs ih => cases x <;> simp [leadingWords, afterWords, ih]

/-- Past its leading words the stream is empty or begins with a reset. -/
theorem afterWords_cases (xs : List HostInput) : afterWords xs = [] ∨ ∃ rest, afterWords xs = .reset :: rest := by
  induction xs with
  | nil => exact .inl rfl
  | cons x xs ih =>
    cases x with
    | word w => simpa [afterWords] using ih
    | reset => exact .inr ⟨xs, rfl⟩

/-- What a step with no complete command can do: reset, or wait unchanged. -/
theorem waitOrReset_next {s t : State} (h : waitOrReset s = .next t) :
    s.valid = true ∧
      ((∃ rest, afterWords s.inputs = .reset :: rest ∧ t = { s.resetNodes with inputs := rest }) ∨
        (afterWords s.inputs = [] ∧ t = s)) := by
  obtain ⟨hv, hb⟩ := onBlock_next h
  refine ⟨hv, ?_⟩
  rcases afterWords_cases s.inputs with e | ⟨rest, e⟩
  · rw [e] at hb
    exact .inr ⟨e, by simpa using hb.symm⟩
  · rw [e] at hb
    exact .inl ⟨rest, e, by simpa using hb.symm⟩

end Sys2Proof.Machine
end

