-- ==== Sys2Proof/Laws/Descriptor.lean ====
section
/-! SUPPORT. The checks of the descriptor table as propositions, and what `lookup` finds. -/

namespace Sys2Proof.Machine

theorem checkDescriptor_ok_iff (d : DescTable) : checkDescriptor d = .ok ↔ ∀ kv ∈ d, kv.2.ok = true := by
  unfold checkDescriptor
  split
  · next h => simpa using h
  · next h => simpa using h

theorem disjointBits_iff (a b : List Nat) : disjointBits a b = true ↔ ∀ k ∈ a, k ∉ b := by
  simp [disjointBits]

theorem noOverlap_iff (dlen : Nat) (l : List SignalLayout) :
    noOverlap dlen l = true ↔ l.Pairwise fun s t => ∀ k ∈ s.occupies dlen, k ∉ t.occupies dlen := by
  induction l with
  | nil => simp [noOverlap]
  | cons s l ih => simp [noOverlap, ih, disjointBits_iff]

theorem mem_occupies (dlen : Nat) (s : SignalLayout) (k : Nat) :
    k ∈ s.occupies dlen ↔ ∃ j < s.width, physBit s.byteOrder dlen (s.start + j) = k := by
  simp [SignalLayout.occupies, physBits]

theorem fitsIn_iff (len : Nat) (s : SignalLayout) : s.fitsIn len = true ↔ s.start + s.width ≤ 8 * len := by
  simp [SignalLayout.fitsIn]

theorem SignalLayout.ok_iff (dlen : Nat) (s : SignalLayout) :
    s.ok dlen = true ↔ 1 ≤ s.width ∧ s.width ≤ 64 ∧ s.start + s.width ≤ 8 * dlen := by
  simp [SignalLayout.ok, fitsIn_iff, show Config.bitLenMax = 64 from rfl, and_assoc]

/-- The four conditions of one entry, as propositions. -/
theorem Entry.ok_iff (e : Entry) :
    e.ok = true ↔ e.dlen ≤ 8 ∧ (∀ s ∈ e.signals, s.ok e.dlen = true) ∧
      e.signals.Pairwise fun s t => ∀ k ∈ s.occupies e.dlen, k ∉ t.occupies e.dlen := by
  simp [Entry.ok, noOverlap_iff, show Config.payloadMax = 8 from rfl, and_assoc]

/-- What is found stands in the table under the id. -/
theorem mem_of_lookup {d : DescTable} {id : Word} {e : Entry} (h : lookup d id = some e) : (id, e) ∈ d := by
  unfold lookup at h
  rw [Option.map_eq_some_iff] at h
  obtain ⟨⟨k, e'⟩, hf, rfl⟩ := h
  have hk := List.find?_some hf
  simp only [decide_eq_true_eq] at hk
  subst hk
  exact List.mem_of_find?_eq_some hf

/-- The entry of an id in the table of a block that exists passes the check. -/
theorem entry_ok_of_lookup {s : State} {id : Word} {e : Entry} (hv : s.valid = true) (h : lookup s.desc id = some e) :
    e.ok = true := by
  have ht := ((State.valid_iff s).1 hv).1
  simp only [tableOk, Bool.and_eq_true, decide_eq_true_eq, checkDescriptor_ok_iff] at ht
  exact ht.2 _ (mem_of_lookup h)

end Sys2Proof.Machine
end

