-- ==== Sys2Proof/Laws/Payload.lean ====
section
/-! SUPPORT. The payload as an integer, bit by bit: what the little-endian integer of a byte list holds, what the bytes of
an integer hold, and the bits of the mask, of `Extract` and of the integer `Insert` forms. -/

namespace Sys2Proof.Machine

theorem leInt_lt (p : List Byte) : leInt p < 2 ^ (8 * p.length) := by
  induction p with
  | nil => simp [leInt]
  | cons b p ih =>
    have hb := b.isLt
    have : 2 ^ (8 * (b :: p).length) = 256 * 2 ^ (8 * p.length) := by
      rw [List.length_cons, Nat.mul_add, Nat.pow_add, Nat.mul_comm]
    simp only [leInt]
    omega

/-- Bit `k` of the little-endian integer is bit `k mod 8` of byte `k div 8`; past the last byte it is 0. -/
theorem testBit_leInt (p : List Byte) (k : Nat) :
    (leInt p).testBit k = (p.getD (k / 8) 0#8).getLsbD (k % 8) := by
  induction p generalizing k with
  | nil => simp [leInt]
  | cons b p ih =>
    have hb : b.toNat < 2 ^ 8 := b.isLt
    have e : leInt (b :: p) = 2 ^ 8 * leInt p + b.toNat := by
      simp only [leInt]
      omega
    rw [e, Nat.testBit_two_pow_mul_add _ hb]
    split
    · next h => simp [Nat.div_eq_of_lt h, Nat.mod_eq_of_lt h, BitVec.getLsbD]
    · next h =>
      obtain ⟨j, rfl⟩ : ∃ j, k = j + 8 := ⟨k - 8, by omega⟩
      simp [ih]

@[simp] theorem length_leBytes (v len : Nat) : (leBytes v len).length = len := by simp [leBytes]

@[simp] theorem length_payloadBytes (o : ByteOrder) (v len : Nat) : (payloadBytes o v len).length = len := by
  cases o <;> simp [payloadBytes]

theorem getElem_leBytes (v len i : Nat) (h : i < (leBytes v len).length) :
    (leBytes v len)[i] = BitVec.ofNat 8 (v >>> (8 * i)) := by
  simp [leBytes]

/-- The little-endian integer of the bytes of an integer that fits is that integer. -/
theorem leInt_leBytes {v len : Nat} (h : v < 2 ^ (8 * len)) : leInt (leBytes v len) = v := by
  apply Nat.eq_of_testBit_eq
  intro k
  rw [testBit_leInt]
  by_cases hk : k / 8 < len
  · have hk' : k / 8 < (leBytes v len).length := by simpa using hk
    rw [List.getD_eq_getElem?_getD, List.getElem?_eq_getElem hk', Option.getD_some, getElem_leBytes]
    have hm : k % 8 < 8 := Nat.mod_lt _ (by decide)
    have hs : 8 * (k / 8) + k % 8 = k := by omega
    rw [BitVec.getLsbD_ofNat, Nat.testBit_shiftRight, hs]
    simp [hm]
  · have hk' : (leBytes v len).length ≤ k / 8 := by simpa using hk
    have : 2 ^ (8 * len) ≤ 2 ^ k := Nat.pow_le_pow_right (by decide) (by omega)
    rw [List.getD_eq_getElem?_getD, List.getElem?_eq_none hk', Nat.testBit_lt_two_pow (by omega)]
    simp

@[simp] theorem testBit_onesMask (n k : Nat) : (onesMask n).testBit k = decide (k < n) := by
  simp [onesMask, Nat.shiftLeft_eq, Nat.testBit_two_pow_sub_one]

/-- Bit `j` of a field is bit `s + j` of the payload integer, for `j` below the field's length. -/
theorem testBit_extractField (o : ByteOrder) (p : List Byte) (s n j : Nat) :
    (extractField o p s n).testBit j = (decide (j < n) && (payloadInt o p).testBit (s + j)) := by
  simp [extractField, Bool.and_comm]

theorem extractField_lt (o : ByteOrder) (p : List Byte) (s n : Nat) : extractField o p s n < 2 ^ n := by
  apply Nat.lt_pow_two_of_testBit
  intro j hj
  simp [testBit_extractField, Nat.not_lt.2 hj]

/-- The payload integer of `L` bytes is below `2^(8*L)`, under both byte orders. -/
theorem payloadInt_lt (o) (p : List Byte) : payloadInt o p < 2 ^ (8 * p.length) := by
  cases o
  · exact leInt_lt p
  · simpa [payloadInt] using leInt_lt p.reverse

/-- The bytes of the little-endian integer of a payload are the payload. -/
theorem leBytes_leInt (p : List Byte) : leBytes (leInt p) p.length = p := by
  apply List.ext_getElem
  · simp
  · intro i h1 h2
    rw [getElem_leBytes]
    ext j hj
    rw [← BitVec.getLsbD_eq_getElem, BitVec.getLsbD_ofNat, Nat.testBit_shiftRight, testBit_leInt]
    have a : (8 * i + j) / 8 = i := by omega
    have b : (8 * i + j) % 8 = j := by omega
    simp [a, b, hj, List.getD_eq_getElem?_getD, h2]

/-- The payload integer of the bytes of an integer that fits is that integer. -/
theorem payloadInt_payloadBytes (o : ByteOrder) {v len : Nat} (h : v < 2 ^ (8 * len)) :
    payloadInt o (payloadBytes o v len) = v := by
  cases o
  · exact leInt_leBytes h
  · simpa [payloadInt, payloadBytes] using leInt_leBytes h

/-- Everything `Insert` does to the payload integer: the bits of the field are those of the value, the others are kept. -/
theorem testBit_insertField (o) (p : List Byte) (s n v : Nat) (h : s + n ≤ 8 * p.length) (hv : v < 2 ^ n) (k : Nat) :
   (payloadInt o (insertField o p s n v)).testBit k = if s ≤ k ∧ k < s + n then v.testBit (k - s) else (payloadInt o p).testBit k := by
  have hb : ((payloadInt o p &&& (onesMask (8 * p.length) ^^^ (onesMask n <<< s))) ||| (v <<< s)) < 2 ^ (8 * p.length) := by
    apply Nat.or_lt_two_pow
    · exact Nat.lt_of_le_of_lt Nat.and_le_left (payloadInt_lt o p)
    · rw [Nat.shiftLeft_eq]
      calc v * 2 ^ s < 2 ^ n * 2 ^ s := Nat.mul_lt_mul_of_pos_right hv (Nat.two_pow_pos s)
        _ = 2 ^ (s + n) := by rw [← Nat.pow_add, Nat.add_comm]
        _ ≤ _ := Nat.pow_le_pow_right (by decide) h
  rw [insertField, payloadInt_payloadBytes o hb]
  have hvk : ∀ j, n ≤ j → v.testBit j = false := fun j hj => Nat.testBit_lt_two_pow (Nat.lt_of_lt_of_le hv (Nat.pow_le_pow_right (by decide) hj))
  have hpk : 8 * p.length ≤ k → (payloadInt o p).testBit k = false := fun hj => Nat.testBit_lt_two_pow (Nat.lt_of_lt_of_le (payloadInt_lt o p) (Nat.pow_le_pow_right (by decide) hj))
  simp only [Nat.testBit_or, Nat.testBit_and, Nat.testBit_xor, Nat.testBit_shiftLeft, testBit_onesMask]
  by_cases h1 : s ≤ k
  · by_cases h2 : k < s + n
    · have : k < 8 * p.length := by omega
      have : k - s < n := by omega
      simp [*]
    · have : ¬ k - s < n := by omega
      rw [hvk _ (by omega)]
      by_cases h3 : k < 8 * p.length
      · simp [*]
      · simp [*, hpk (by omega)]
  · have : ¬ (s ≤ k ∧ k < s + n) := by omega
    have h3 : k < 8 * p.length := by omega
    simp [*]

/-- `Extract` as division and remainder. -/
theorem extractField_eq (o p s n) : extractField o p s n = payloadInt o p / 2 ^ s % 2 ^ n := by
  rw [extractField, onesMask, Nat.shiftLeft_eq, Nat.one_mul, Nat.and_two_pow_sub_one_eq_mod, Nat.shiftRight_eq_div_pow]

end Sys2Proof.Machine
end

