-- ==== Sys2Proof/Laws/Codec.lean ====
section
/-! SUPPORT. What DECODE reads and what writing one field does to every other field of a checked entry. -/

namespace Sys2Proof.Machine

/-- One decoded signal for each layout. -/
theorem length_decodeSignals (p) (l : List SignalLayout) (k : Nat) : (decodeSignals p l k).length = l.length := by
  induction l generalizing k with
  | nil => rfl
  | cons a l ih => simp [decodeSignals, ih]

/-- The decoded signal at a position. -/
theorem getElem_decodeSignals (p) (l : List SignalLayout) (k i : Nat) (h : i < (decodeSignals p l k).length) (h' : i < l.length) :
    (decodeSignals p l k)[i] = decodeSignal p l[i] (k + i) := by
  induction l generalizing k i with
  | nil => simp at h'
  | cons a l ih =>
    cases i with
    | zero => rfl
    | succ i => simp only [decodeSignals, List.getElem_cons_succ]; rw [ih (h' := by simpa using h')]; congr 1; omega

/-- DECODE of a legal frame by a block that exists. -/
theorem exec_decode_of_valid (s : State) (f : RawFrame) (hv : s.valid = true) (hf : f.length ≤ 8) : exec (.decode f) s =
    (match lookup s.desc f.id with
    | none => raise .unknownFrameId s
    | some e =>
      if e.signals.all (SignalLayout.fitsIn f.length) then
        .next ((s.respond (.decoded (decodeSignals f.payload e.signals s.draws))).draw e.signals.length)
      else raise .truncatedPayload s) := by
  exact obey_of_valid hv ((wellFormed_decode_iff f).2 hf) _

/-- The raw value a decoded signal carries is its field of the payload integer. -/
theorem toNat_rawField (p : List Byte) (l : SignalLayout) (h : l.width ≤ 64) : (BitVec.ofNat 64 (rawField p l)).toNat = payloadInt l.byteOrder p / 2 ^ l.startBit.toNat % 2 ^ l.bitLength.toNat := by
  have : rawField p l = payloadInt l.byteOrder p / 2 ^ l.startBit.toNat % 2 ^ l.bitLength.toNat := by
    rw [rawField, extractField_eq]; rfl
  rw [this, BitVec.toNat_ofNat, Nat.mod_eq_of_lt]
  refine Nat.lt_of_lt_of_le (Nat.mod_lt _ (Nat.two_pow_pos _)) (Nat.pow_le_pow_right (by decide) h)

/-- Bit `x` of a payload, counted by payload bits (R28). -/
def payloadBit (p : List Byte) (x : Nat) : Bool := (p.getD (x / 8) 0#8).getLsbD (x % 8)

theorem physBit_lt {o L k} (h : k < 8 * L) : physBit o L k < 8 * L := by
  cases o <;> simp only [physBit, byteIndex] <;> omega

/-- `PhysBit` is its own inverse. -/
theorem physBit_physBit {o L k} (h : k < 8 * L) : physBit o L (physBit o L k) = k := by
  cases o <;> simp only [physBit, byteIndex] <;> omega

/-- Bit `k` of the payload integer is payload bit `PhysBit k`. -/
theorem testBit_payloadInt (o : ByteOrder) (p : List Byte) (k : Nat) (h : k < 8 * p.length) : (payloadInt o p).testBit k = payloadBit p (physBit o p.length k) := by
  cases o
  · simp only [payloadInt, testBit_leInt, physBit, byteIndex, payloadBit]
    congr 2 <;> omega
  · have h1 : k / 8 < p.length := by omega
    have h2 : p.length - 1 - k / 8 < p.length := by omega
    have e1 : (8 * (p.length - 1 - k / 8) + k % 8) / 8 = p.length - 1 - k / 8 := by omega
    have e2 : (8 * (p.length - 1 - k / 8) + k % 8) % 8 = k % 8 := by omega
    simp only [payloadInt, testBit_leInt, physBit, byteIndex, payloadBit, e1, e2]
    simp [List.getD_eq_getElem?_getD, h1, h2]

/-- A field keeps its value when a field of other payload bits is written, whatever the two byte orders. -/
theorem rawField_insert_ne (p : List Byte) (a b : SignalLayout) (v : Nat) (ha : a.start + a.width ≤ 8 * p.length) (hb : b.start + b.width ≤ 8 * p.length) (hv : v < 2 ^ a.width)
   (hd : ∀ k ∈ a.occupies p.length, k ∉ b.occupies p.length) : rawField (insertField a.byteOrder p a.start a.width v) b = rawField p b := by
  have hlen : (insertField a.byteOrder p a.start a.width v).length = p.length := by simp [insertField]
  apply Nat.eq_of_testBit_eq
  intro j
  simp only [rawField, testBit_extractField]
  by_cases hj : j < b.width
  · simp only [hj, decide_true, Bool.true_and]
    have hk : b.start + j < 8 * p.length := by omega
    rw [testBit_payloadInt _ _ _ (by rwa [hlen]), testBit_payloadInt _ _ _ hk, hlen]
    have hx : physBit b.byteOrder p.length (b.start + j) < 8 * p.length := physBit_lt hk
    have hmem : physBit b.byteOrder p.length (b.start + j) ∈ b.occupies p.length := (mem_occupies ..).2 ⟨j, hj, rfl⟩
    generalize physBit b.byteOrder p.length (b.start + j) = x at *
    have hy := physBit_lt (o := a.byteOrder) hx
    have e1 := testBit_payloadInt a.byteOrder (insertField a.byteOrder p a.start a.width v) (physBit a.byteOrder p.length x) (by rwa [hlen])
    have e2 := testBit_payloadInt a.byteOrder p (physBit a.byteOrder p.length x) hy
    rw [hlen, physBit_physBit hx] at e1
    rw [physBit_physBit hx] at e2
    rw [← e1, ← e2, testBit_insertField _ _ _ _ _ ha hv, if_neg]
    rintro ⟨h1, h2⟩
    refine hd x ((mem_occupies ..).2 ⟨physBit a.byteOrder p.length x - a.start, by omega, ?_⟩) hmem
    rw [show a.start + (physBit a.byteOrder p.length x - a.start) = physBit a.byteOrder p.length x by omega, physBit_physBit hx]
  · simp [hj]

/-- A field written reads back. -/
theorem rawField_insert_self (p : List Byte) (a : SignalLayout) (v : Nat) (ha : a.start + a.width ≤ 8 * p.length) (hv : v < 2 ^ a.width) :
   rawField (insertField a.byteOrder p a.start a.width v) a = v := by
  apply Nat.eq_of_testBit_eq
  intro j
  rw [rawField, testBit_extractField, testBit_insertField _ _ _ _ _ ha hv]
  by_cases hj : j < a.width
  · simp [hj]
  · simp [hj, Nat.testBit_lt_two_pow (Nat.lt_of_lt_of_le hv (Nat.pow_le_pow_right (by decide) (Nat.not_lt.1 hj)))]

/-- Every field of the all-zero payload is 0. -/
theorem rawField_zero (n : Nat) (l : SignalLayout) : rawField (List.replicate n 0#8) l = 0 := by
  apply Nat.eq_of_testBit_eq
  intro j
  have : payloadInt l.byteOrder (List.replicate n 0#8) = 0 := by
    have key : ∀ n, leInt (List.replicate n 0#8) = 0 := by
      intro n; induction n with
      | zero => rfl
      | succ n ih => simp [List.replicate_succ, leInt, ih]
    cases l.byteOrder <;> simp [payloadInt, key]
  simp [rawField, testBit_extractField, this]

end Sys2Proof.Machine
end

