-- ==== Sys2Proof/Laws/Crc.lean ====
section
/-! SUPPORT. The CRC register, one step at a time (R80). -/

namespace Sys2Proof.Machine

/-- One step of the register is linear. -/
theorem crcStep_xor : ∀ (a b : BitVec 15) (x y : Bool), crcStep (a ^^^ b) (x ^^ y) = crcStep a x ^^^ crcStep b y := by
  intro a b x y
  have h : ∀ (a b : BitVec 15), (a ^^^ b) <<< 1 = (a <<< 1) ^^^ (b <<< 1) := fun a b => BitVec.shiftLeft_xor_distrib a b 1
  simp only [crcStep, h, BitVec.getLsbD_xor]
  generalize Config.crcPoly = P
  generalize a.getLsbD 14 = a14
  generalize b.getLsbD 14 = b14
  ext i hi
  cases x <;> cases y <;> cases a14 <;> cases b14 <;> simp only [Bool.false_xor, Bool.true_xor, Bool.not_true, Bool.not_false, if_true, if_false, BitVec.getElem_xor, Bool.false_eq_true] <;>
   generalize (a <<< 1)[i] = u <;> generalize (b <<< 1)[i] = v <;> generalize P[i] = w <;> revert u v w <;> decide

/-- So is any number of steps. -/
theorem foldl_crcStep_xor (bs cs : List Bool) (h : bs.length = cs.length) (a b : BitVec 15) :
   (List.zipWith (· ^^ ·) bs cs).foldl crcStep (a ^^^ b) = bs.foldl crcStep a ^^^ cs.foldl crcStep b := by
  induction bs generalizing cs a b with
  | nil => cases cs <;> simp_all
  | cons x bs ih =>
    cases cs with
    | nil => simp at h
    | cons y cs => simp only [List.zipWith_cons_cons, List.foldl_cons, crcStep_xor]; exact ih cs (by simpa using h) _ _

/-- So is a byte. -/
theorem crcByte_xor (x y : Byte) (a b : BitVec 15) : crcByte (a ^^^ b) (x ^^^ y) = crcByte a x ^^^ crcByte b y := by
  rw [crcByte, crcByte, crcByte, ← foldl_crcStep_xor (bitsMsbFirst x) (bitsMsbFirst y) rfl]
  simp [bitsMsbFirst]

/-- Zero bytes leave the zero register. -/
theorem foldl_crcByte_zeros (k : Nat) : (List.replicate k 0#8).foldl crcByte 0#15 = 0#15 := by
  induction k with
  | zero => rfl
  | succ k ih => simp [List.replicate_succ, (show crcByte 0#15 0#8 = 0#15 by decide), ih]

/-- A zero input bit takes no register but 0 to 0. -/
theorem eq_zero_of_crcStep (a : BitVec 15) (h : crcStep a false = 0#15) : a = 0#15 := by
  unfold crcStep at h
  simp only [Bool.false_xor] at h
  have e : ∀ i, (if a.getLsbD 14 = true then a <<< 1 ^^^ Config.crcPoly else a <<< 1).getLsbD i = (0#15).getLsbD i := fun i => by rw [h]
  ext i hi
  have h14 : a.getLsbD 14 = false := by
    by_contra hc
    have := e 0
    simp at hc
    simp [hc, Config.crcPoly] at this
  simp only [h14] at e
  by_cases hi14 : i = 14
  · subst hi14; simpa using h14
  · have := e (i+1)
    simp at this
    simpa [BitVec.getLsbD_eq_getElem hi] using this (by omega)

/-- Each bit of the register after a step. -/
theorem getLsbD_crcStep (r : BitVec 15) (b : Bool) (i : Nat) (hi : i < 15) : (crcStep r b).getLsbD i = ((decide (1 ≤ i) && r.getLsbD (i - 1)) ^^ ((b ^^ r.getLsbD 14) && Config.crcPoly.getLsbD i)) := by
  unfold crcStep
  simp only
  generalize Config.crcPoly = P
  have hs : (r <<< 1).getLsbD i = (decide (1 ≤ i) && r.getLsbD (i - 1)) := by
    rw [BitVec.getLsbD_shiftLeft]
    by_cases h : i = 0
    · simp [h]
    · have h1 : 1 ≤ i := by omega
      have h2 : ¬ i < 1 := by omega
      simp [hi, h1]; omega
  cases hb : (b ^^ r.getLsbD 14)
  · simp [hs]
  · rw [if_pos rfl, BitVec.getLsbD_xor, hs]; simp

end Sys2Proof.Machine
end

