-- ==== Sys2Proof/Laws/Float.lean ====
section
/-! SUPPORT. The f64 values: what a bit pattern holds, which magnitudes have a pattern, and what the one rounding every
operation ends in can answer. -/

namespace Sys2Proof.Machine

/-- A sign and 63 bits as a number. -/
theorem toNat_signed (neg : Bool) (x : BitVec 63) : (bit neg ++ x : BitVec (1 + 63)).toNat = neg.toNat * 2 ^ 63 + x.toNat := by
  rw [BitVec.toNat_append, Nat.shiftLeft_eq, ← Nat.shiftLeft_eq, ← Nat.shiftLeft_add_eq_or_of_lt x.isLt, Nat.shiftLeft_eq]
  simp [bit]

/-- The sign of a pattern made of a sign and 63 bits. -/
theorem sign_append (neg : Bool) (x : BitVec 63) : F64.sign (bit neg ++ x : BitVec (1 + 63)) = neg := by
  simp only [F64.sign, bit, BitVec.getLsbD_append]; simp

/-- Its exponent field. -/
theorem exp_append (neg : Bool) (x : BitVec 63) : F64.expField (bit neg ++ x : BitVec (1 + 63)) = x.toNat / 2 ^ 52 := by
  have := x.isLt
  simp only [F64.expField, BitVec.extractLsb'_toNat, Nat.shiftRight_eq_div_pow]
  rw [toNat_signed]
  omega

/-- Its fraction field. -/
theorem frac_append (neg : Bool) (x : BitVec 63) : F64.fracField (bit neg ++ x : BitVec (1 + 63)) = x.toNat % 2 ^ 52 := by
  have := x.isLt
  simp only [F64.fracField, BitVec.extractLsb'_toNat, Nat.shiftRight_eq_div_pow]
  rw [toNat_signed]
  omega

/-- The unit. -/
theorem fone_eq : fone = 2 ^ 1074 := by rw [fone]

theorem fone_pos : 0 < fone := by rw [fone_eq]; exact Nat.two_pow_pos _

theorem foverflow_eq : foverflow = 2 ^ 2098 := by rw [foverflow]

/-- The magnitudes of the finite f64s: below `2^1024`, and multiples of the last place of their binade. -/
def Grid (mag : Nat) : Prop := mag < 2 ^ 2098 ∧ 2 ^ binade mag ∣ mag

/-- Below `2^53` the last place is one unit. -/
theorem binade_lt {mag : Nat} (h : mag < 2 ^ 53) : binade mag = 0 := by
  unfold binade
  by_cases h0 : mag = 0
  · subst h0; simp
  · have := (Nat.log2_lt h0).2 h; omega

/-- From `2^53` on the binade has 53 significant bits. -/
theorem binade_ge {mag : Nat} (h : 2 ^ 53 ≤ mag) : 1 ≤ binade mag ∧ 2 ^ (52 + binade mag) ≤ mag ∧ mag < 2 ^ (53 + binade mag) := by
  have h0 : mag ≠ 0 := by have := Nat.two_pow_pos 53; omega
  have h1 : 53 ≤ mag.log2 := (Nat.le_log2 h0).2 h
  unfold binade
  refine ⟨by omega, ?_, ?_⟩
  · rw [show 52 + (mag.log2 - 52) = mag.log2 by omega]; exact Nat.log2_self_le h0
  · rw [show 53 + (mag.log2 - 52) = mag.log2 + 1 by omega]; exact Nat.lt_log2_self

/-- A magnitude in the range of a binade is in it. -/
theorem binade_of_range {mag e : Nat} (h1 : 2 ^ (52 + e) ≤ mag) (h2 : mag < 2 ^ (53 + e)) : binade mag = e := by
  have h0 : mag ≠ 0 := by have := Nat.two_pow_pos (52 + e); omega
  have a : 52 + e ≤ mag.log2 := (Nat.le_log2 h0).2 h1
  have b : mag.log2 < 53 + e := (Nat.log2_lt h0).2 h2
  unfold binade; omega

/-- A pattern with the top exponent and a fraction that is not 0 is a NaN. -/
theorem ofBits_nan_fields (s : BitVec 1) (f : BitVec 52) (hf : f ≠ 0#52) : ofBits (s ++ 2047#11 ++ f : BitVec (1 + 11 + 52)) = .nan := by
  have e : F64.expField (s ++ 2047#11 ++ f : BitVec (1+11+52)) = 2047 := by
    rw [F64.expField, BitVec.extractLsb'_append_eq_of_le (by decide)]
    simp only [Nat.reduceSub, BitVec.extractLsb'_append_eq_right]; rfl
  have g : F64.fracField (s ++ 2047#11 ++ f : BitVec (1+11+52)) ≠ 0 := by
    rw [F64.fracField, BitVec.extractLsb'_append_eq_right]
    intro hh; apply hf; rw [← BitVec.toNat_inj, hh]; rfl
  unfold ofBits
  rw [e, if_pos rfl, if_neg g]

/-- A NaN is shown as a NaN whatever the free value. -/
theorem toBits_nan (d : BitVec 64) : ofBits (toBits .nan d) = .nan := by
  refine ofBits_nan_fields _ _ ?_
  split
  · decide
  · assumption

/-- An infinity is shown as itself. -/
theorem toBits_inf (neg : Bool) (d : BitVec 64) : ofBits (toBits (.inf neg) d) = .inf neg := by
  cases neg <;> simp only [toBits] <;> decide

/-- The value of a finite pattern made of a sign and 63 bits. -/
theorem ofBits_fin_append (neg : Bool) (x : Nat) (hx : x / 2 ^ 52 < 2047) :
   ofBits (bit neg ++ BitVec.ofNat 63 x : BitVec (1 + 63)) = .fin neg (if x / 2 ^ 52 = 0 then x % 2 ^ 52 else (2 ^ 52 + x % 2 ^ 52) * 2 ^ (x / 2 ^ 52 - 1)) := by
  have hx' : (BitVec.ofNat 63 x).toNat = x := by rw [BitVec.toNat_ofNat, Nat.mod_eq_of_lt]; omega
  unfold ofBits
  rw [exp_append, frac_append, sign_append, hx']
  rw [if_neg (by omega)]
  split <;> rfl

/-- A magnitude of the grid is shown as itself. -/
theorem toBits_fin (neg : Bool) (mag : Nat) (h : Grid mag) (d : BitVec 64) : ofBits (toBits (.fin neg mag) d) = .fin neg mag := by
  obtain ⟨h1, h2⟩ := h
  rcases Nat.lt_or_ge mag (2 ^ 53) with hl | hl
  · have hb := binade_lt hl
    have : finBits mag = mag := by simp [finBits, hb]
    rw [toBits, this, ofBits_fin_append _ _ (by omega)]
    split
    · congr 1; omega
    · have : mag / 2 ^ 52 = 1 := by omega
      rw [this]; congr 1; simp; omega
  · obtain ⟨b1, b2, b3⟩ := binade_ge hl
    have hb : binade mag ≤ 2045 := by
      by_contra hc
      have : 2 ^ 2098 ≤ 2 ^ (52 + binade mag) := Nat.pow_le_pow_right (by decide) (by omega)
      exact Nat.lt_irrefl _ (Nat.lt_of_lt_of_le h1 (Nat.le_trans this b2))
    obtain ⟨m, hm⟩ := h2
    generalize binade mag = e at *
    have hp := Nat.two_pow_pos e
    have b2' := b2; have b3' := b3
    have hd : mag / 2 ^ e = m := by rw [hm, Nat.mul_div_cancel_left _ hp]
    have m1 : 2 ^ 52 ≤ m := by
      rw [hm, Nat.add_comm, Nat.pow_add] at b2'; exact Nat.le_of_mul_le_mul_left b2' hp
    have m2 : m < 2 ^ 53 := by
      rw [hm, Nat.add_comm, Nat.pow_add] at b3'; exact Nat.lt_of_mul_lt_mul_left b3'
    have hf : finBits mag = e * 2 ^ 52 + m := by
      rw [finBits, binade_of_range b2 b3, hd]
    rw [toBits, hf]
    have q : (e * 2 ^ 52 + m) / 2 ^ 52 = e + 1 := by omega
    have r : (e * 2 ^ 52 + m) % 2 ^ 52 = m - 2 ^ 52 := by omega
    rw [ofBits_fin_append _ _ (by omega), q, r, if_neg (by omega)]
    rw [show 2 ^ 52 + (m - 2 ^ 52) = m by omega, Nat.add_sub_cancel, hm, Nat.mul_comm]

/-- A pattern is its three fields. -/
theorem toNat_decomp (b : F64) : b.toNat = (F64.sign b).toNat * 2 ^ 63 + F64.expField b * 2 ^ 52 + F64.fracField b := by
  have := b.isLt
  have hs : (F64.sign b).toNat = b.toNat / 2 ^ 63 := by
    rw [F64.sign, BitVec.getLsbD, Nat.testBit, Nat.one_and_eq_mod_two, Nat.shiftRight_eq_div_pow]
    have : b.toNat / 2 ^ 63 < 2 := by omega
    generalize b.toNat / 2 ^ 63 = x at *
    interval_cases x <;> rfl
  rw [hs]
  simp only [F64.expField, F64.fracField, BitVec.extractLsb'_toNat, Nat.shiftRight_eq_div_pow]
  omega

theorem exp_lt (b : F64) : F64.expField b < 2048 := (b.extractLsb' 52 11).isLt

theorem frac_lt (b : F64) : F64.fracField b < 2 ^ 52 := (b.extractLsb' 0 52).isLt

/-- Three fields as a number. -/
theorem toNat_fields (s : BitVec 1) (e : BitVec 11) (f : BitVec 52) :
    (s ++ e ++ f : BitVec (1 + 11 + 52)).toNat = s.toNat * 2 ^ 63 + e.toNat * 2 ^ 52 + f.toNat := by
  rw [BitVec.toNat_append, ← Nat.shiftLeft_add_eq_or_of_lt f.isLt, BitVec.toNat_append, ← Nat.shiftLeft_add_eq_or_of_lt e.isLt]
  simp only [Nat.shiftLeft_eq]; omega

/-- Everything a finite pattern is: its magnitude is of the grid and its low 63 bits are `finBits` of it. -/
theorem ofBits_fin {b : F64} {neg mag} (h : ofBits b = .fin neg mag) : Grid mag ∧ finBits mag = b.toNat % 2 ^ 63 ∧ neg = F64.sign b := by
  have hd := toNat_decomp b
  have h2 := frac_lt b
  have h3 := exp_lt b
  unfold ofBits at h
  split at h
  · split at h <;> cases h
  · next he =>
    have hm : b.toNat % 2 ^ 63 = F64.expField b * 2 ^ 52 + F64.fracField b := by
      have := Bool.toNat_le (F64.sign b)
      omega
    split at h
    · next he0 =>
      cases h
      have hl : F64.fracField b < 2 ^ 53 := by omega
      refine ⟨⟨Nat.lt_of_lt_of_le hl (Nat.pow_le_pow_right (by decide) (by decide)), by rw [binade_lt hl]; simp⟩, ?_, rfl⟩
      rw [finBits, binade_lt hl, hm, he0]; simp
    · next he0 =>
      cases h
      have hr : binade ((2 ^ 52 + F64.fracField b) * 2 ^ (F64.expField b - 1)) = F64.expField b - 1 := by
        apply binade_of_range
        · rw [Nat.pow_add]; exact Nat.mul_le_mul_right _ (by omega)
        · rw [Nat.pow_add]; exact Nat.mul_lt_mul_of_pos_right (by omega) (Nat.two_pow_pos _)
      refine ⟨⟨?_, ?_⟩, ?_, rfl⟩
      · calc _ < 2 ^ 53 * 2 ^ (F64.expField b - 1) := Nat.mul_lt_mul_of_pos_right (by omega) (Nat.two_pow_pos _)
          _ = 2 ^ (53 + (F64.expField b - 1)) := (Nat.pow_add ..).symm
          _ ≤ _ := Nat.pow_le_pow_right (by decide) (by omega)
      · rw [hr]; exact Dvd.intro_left _ rfl
      · rw [finBits, hr, Nat.mul_div_cancel _ (Nat.two_pow_pos _), hm]; omega

/-- The nearest integer is within half a step. -/
theorem nearestEven_bounds (num den : Nat) (h : 0 < den) : 
   2 * (nearestEven num den * den) ≤ 2 * num + den ∧ 2 * num ≤ 2 * (nearestEven num den * den) + den := by
  have e := Nat.div_add_mod num den
  have l := Nat.mod_lt num h
  unfold nearestEven
  simp only
  generalize num % den = r at *
  generalize num / den = m at *
  rw [Nat.mul_comm] at e
  split
  · omega
  · rw [Nat.add_mul]; omega

/-- At half a step the nearest integer is even. -/
theorem nearestEven_tie (num den : Nat) (h : 0 < den) : (2 * (nearestEven num den * den) = 2 * num + den ∨ 2 * num = 2 * (nearestEven num den * den) + den) → nearestEven num den % 2 = 0 := by
  have e := Nat.div_add_mod num den
  have l := Nat.mod_lt num h
  unfold nearestEven
  simp only
  generalize num % den = r at *
  generalize num / den = m at *
  rw [Nat.mul_comm] at e
  split
  · omega
  · rw [Nat.add_mul]; omega

/-- The same with ties away from zero. -/
theorem nearestAway_bounds (num den : Nat) (h : 0 < den) : 
   2 * (nearestAway num den * den) ≤ 2 * num + den ∧ 2 * num ≤ 2 * (nearestAway num den * den) + den ∧
    (2 * num + den = 2 * (nearestAway num den * den) ∨ 2 * num < 2 * (nearestAway num den * den) + den) := by
  have e := Nat.div_add_mod num den
  have l := Nat.mod_lt num h
  unfold nearestAway
  simp only
  generalize num % den = r at *
  generalize num / den = m at *
  rw [Nat.mul_comm] at e
  split
  · omega
  · rw [Nat.add_mul]; omega

/-- The nearest integer is the quotient or one more. -/
theorem nearestEven_le_succ (num den : Nat) : nearestEven num den ≤ num / den + 1 ∧ num / den ≤ nearestEven num den := by
  unfold nearestEven; simp only; split <;> omega

/-- An exact quotient is its own nearest integer. -/
theorem nearest_exact (t : TieRule) (k : Nat) (d : Nat) (h : 0 < d) : nearest t (k * d) d = k := by
  cases t <;> simp [nearest, nearestEven, nearestAway, Nat.mul_div_cancel _ h, Nat.mul_mod_left, h]

/-- At most 53 significant bits, shifted, are on the grid. -/
theorem grid_of_mul {m e : Nat} (hm : m ≤ 2 ^ 53) (h : m * 2 ^ e < 2 ^ 2098) : Grid (m * 2 ^ e) := by
  refine ⟨h, ?_⟩
  have hp := Nat.two_pow_pos e
  rcases Nat.lt_or_ge (m * 2 ^ e) (2 ^ 53) with hl | hl
  · rw [binade_lt hl]; simp
  · obtain ⟨b1, b2, b3⟩ := binade_ge hl
    generalize binade (m * 2 ^ e) = k at *
    -- 2^(52+k) ≤ m 2^e ≤ 2^(53+e) so k ≤ e+1
    have : 2 ^ (52 + k) ≤ 2 ^ (53 + e) := by
      rw [Nat.pow_add 2 53 e]; exact Nat.le_trans b2 (Nat.mul_le_mul_right _ hm)
    have hk : 52 + k ≤ 53 + e := (Nat.pow_le_pow_iff_right (by decide)).1 this
    rcases Nat.lt_or_ge e k with h3 | h3
    · have : k = e + 1 := by omega
      subst this
      have : m = 2 ^ 53 := by
        have : 2 ^ 53 * 2 ^ e ≤ m * 2 ^ e := by rw [← Nat.pow_add]; convert b2 using 2; omega
        have := Nat.le_of_mul_le_mul_right this hp
        omega
      rw [this, ← Nat.pow_add]; exact Nat.pow_dvd_pow 2 (by omega)
    · exact Dvd.dvd.mul_left (Nat.pow_dvd_pow 2 h3) _

/-- A quotient scaled to its binade has at most 53 bits. -/
theorem div_scaled_lt (num den : Nat) : num / (den * 2 ^ binade (num / den)) < 2 ^ 53 := by
  rw [← Nat.div_div_eq_div_mul]
  generalize num / den = q
  rcases Nat.lt_or_ge q (2 ^ 53) with hl | hl
  · rw [binade_lt hl]; simpa using hl
  · obtain ⟨b1, b2, b3⟩ := binade_ge hl
    rw [Nat.div_lt_iff_lt_mul (Nat.two_pow_pos _), ← Nat.pow_add]; exact b3

/-- A rounded quotient is infinite or on the grid, with the sign given. -/
theorem roundQuot_cases (neg : Bool) (num den : Nat) : roundQuot neg num den = .inf neg ∨ ∃ mag, Grid mag ∧ roundQuot neg num den = .fin neg mag := by
  unfold roundQuot
  simp only
  split
  · next h =>
    refine .inr ⟨_, ?_, rfl⟩
    apply grid_of_mul
    · have := (nearestEven_le_succ num (den * 2 ^ binade (num / den))).1
      have := div_scaled_lt num den
      omega
    · exact h
  · exact .inl rfl

/-- Every sum has a pattern that shows it. -/
theorem fadd_rep (a b : FVal) (d : BitVec 64) : ofBits (toBits (fadd a b) d) = fadd a b := by
  have key : ∀ neg num den, ofBits (toBits (roundQuot neg num den) d) = roundQuot neg num den := by
    intro neg num den
    rcases roundQuot_cases neg num den with h | ⟨mag, hg, h⟩ <;> rw [h]
    · exact toBits_inf ..
    · exact toBits_fin _ _ hg d
  have z : Grid 0 := ⟨Nat.two_pow_pos _, by simp⟩
  have N := toBits_nan d
  have I := fun neg => toBits_inf neg d
  rcases a with _ | s | ⟨s, a⟩ <;> rcases b with _ | t | ⟨t, b⟩ <;> simp only [fadd, N, I]
  · split
    · exact I _
    · exact N
  · split_ifs
    · exact key ..
    · exact key ..
    · exact key ..
    · exact toBits_fin _ _ z d

end Sys2Proof.Machine
end

