-- ==== Sys2Proof/Laws/Node.lean ====
section
/-! SUPPORT. The status label and the register invariant as propositions, and that each node command keeps the
invariant. -/

namespace Sys2Proof.Machine

theorem label_ne_errorPassive (c : Nat) : label c ≠ .errorPassive := by
  unfold label
  split_ifs <;> simp

theorem label_eq_busOff_iff (c : Nat) : label c = .busOff ↔ 255 < c := by
  simp only [label, show Config.warnThreshold = 128 from rfl, show Config.busOffLimit = 255 from rfl]
  split_ifs <;> simp <;> omega

/-- The register invariant (R17) as a proposition. -/
theorem NodeRegs.ok_iff (r : NodeRegs) :
    r.ok = true ↔ r.state = label r.cnt.toNat ∧ (r.recovering = true ↔ r.state = .busOff) := by
  unfold NodeRegs.ok
  cases r.recovering <;> simp

/-- Outside BusOff the counter is in the valid band. -/
theorem NodeRegs.cnt_le_of_ok {r : NodeRegs} (h : r.ok = true) (hb : r.state ≠ .busOff) : r.cnt.toNat ≤ 255 := by
  rw [NodeRegs.ok_iff] at h
  rw [h.1, Ne, label_eq_busOff_iff] at hb
  omega

/-- Outside BusOff the node is not recovering. -/
theorem NodeRegs.recovering_of_ok {r : NodeRegs} (h : r.ok = true) (hb : r.state ≠ .busOff) : r.recovering = false := by
  have := ((NodeRegs.ok_iff r).1 h).2
  simp_all

/-- A non-negative increment is at most 32767. -/
theorem increment_le {i : BitVec 16} (h : ¬ i.toInt < 0) : i.toInt.toNat ≤ 32767 := by
  have := BitVec.toInt_lt (x := i)
  omega

/-- The counter ON_SUCCESS stores is the integer it computes. -/
theorem toNat_success {r : NodeRegs} (h : r.cnt.toNat ≤ 255) :
    (BitVec.ofNat 16 (r.cnt.toNat - 1)).toNat = r.cnt.toNat - 1 := by
  simp only [BitVec.toNat_ofNat]
  omega

/-- The counter ON_FAILURE stores is the integer it computes: no wrap (R10). -/
theorem toNat_failure {r : NodeRegs} {i : BitVec 16} (h : r.cnt.toNat ≤ 255) (hi : ¬ i.toInt < 0) :
    (BitVec.ofNat 16 (r.cnt.toNat + i.toInt.toNat)).toNat = r.cnt.toNat + i.toInt.toNat := by
  have := increment_le hi
  simp only [BitVec.toNat_ofNat]
  omega

theorem successNode_ok {r : NodeRegs} (h : r.ok = true) : (successNode r).regs.ok = true := by
  unfold successNode
  split
  · exact h
  · next hb =>
    have hc := NodeRegs.cnt_le_of_ok h hb
    rw [NodeRegs.ok_iff]
    simp only [toNat_success hc, NodeRegs.recovering_of_ok h hb, label_eq_busOff_iff]
    simp
    omega

theorem failureNode_ok {r : NodeRegs} (i : BitVec 16) (h : r.ok = true) : (failureNode i r).regs.ok = true := by
  unfold failureNode
  simp only [show Config.busOffLimit = 255 from rfl]
  split_ifs with hi hb hc
  · exact h
  · exact h
  · rw [NodeRegs.ok_iff]
    simp only [toNat_failure (NodeRegs.cnt_le_of_ok h hb) hi]
    simp [eq_comm (a := NodeState.busOff), label_eq_busOff_iff, hc]
  · rw [NodeRegs.ok_iff]
    simp only [toNat_failure (NodeRegs.cnt_le_of_ok h hb) hi, NodeRegs.recovering_of_ok h hb, label_eq_busOff_iff]
    simp
    omega

theorem tickNode_ok {r : NodeRegs} (d i : BitVec 16) (h : r.ok = true) : (tickNode d i r).regs.ok = true := by
  unfold tickNode
  split_ifs
  · exact h
  · decide
  · exact h

end Sys2Proof.Machine
end

