-- ==== Sys2Proof/Laws/PerInstr.lean ====
section
/-! SUPPORT. Statements made for every instruction, one lemma per constructor. EncodeLength: the header the encoder writes
asks for exactly the words the encoder writes (R40, R48). -/

namespace Sys2Proof.Laws

/-- The encoder writes a header and as many words after it as the header asks for. -/
def EncodeLength.Statement (i : Instr) : Prop :=
  i.wellFormed = true → ∃ w0 args, encode i = w0 :: args ∧ commandLength w0 = args.length + 1

theorem EncodeLength.decode (frame : RawFrame) : EncodeLength.Statement (.decode frame) := by
  refine fun _ => ⟨_, _, rfl, ?_⟩
  rw [commandLength, opc_headerF]
  rfl

theorem EncodeLength.encode (frameId : Word) (ext : Bool) (values : List (Byte × F64)) :
    EncodeLength.Statement (.encode frameId ext values) := by
  refine fun h => ⟨_, _, rfl, ?_⟩
  rw [wellFormed_encode_iff] at h
  rw [commandLength, opc_headerE]
  simp only [Opcode.ofCode_code, nsig_headerE, BitVec.toNat_ofNat]
  rw [Nat.mod_eq_of_lt (by omega)]
  simp [List.length_flatMap, encodePair]
  omega

theorem EncodeLength.crcCompute (payload : List Byte) : EncodeLength.Statement (.crcCompute payload) := by
  refine fun _ => ⟨_, _, rfl, ?_⟩
  rw [commandLength, opc_headerP]
  rfl

theorem EncodeLength.crcClassify (received : List Byte) (receivedCrc : BitVec 15) (expected : List Byte) :
    EncodeLength.Statement (.crcClassify received receivedCrc expected) := by
  refine fun _ => ⟨_, _, rfl, ?_⟩
  rw [commandLength, opc_headerC]
  rfl

theorem EncodeLength.onSuccess (n : NodeIx) : EncodeLength.Statement (.onSuccess n) := by
  refine fun _ => ⟨_, _, rfl, ?_⟩
  rw [commandLength, opc_headerN]
  rfl

theorem EncodeLength.onFailure (n : NodeIx) (increment : BitVec 16) :
    EncodeLength.Statement (.onFailure n increment) := by
  refine fun _ => ⟨_, _, rfl, ?_⟩
  rw [commandLength, opc_headerN]
  rfl

theorem EncodeLength.onBusOffTick (n : NodeIx) (elapsed : BitVec 16) :
    EncodeLength.Statement (.onBusOffTick n elapsed) := by
  refine fun _ => ⟨_, _, rfl, ?_⟩
  rw [commandLength, opc_headerN]
  rfl

end Sys2Proof.Laws
end

