-- ==== Sys2Proof/Laws/Step.lean ====
section
/-! SUPPORT. Everything a command can do, and everything a step can do, each said once (inversion lemmas). -/

namespace Sys2Proof.Machine

open Safety

/-- What a node command that answers has done: the registers and the response bits of its node function. -/
inductive NodeEffect (s : State) : Instr → State → Prop where
  | success (n : NodeIx) : NodeEffect s (.onSuccess n)
      ((s.setNode n (successNode (s.node n)).regs).respond
        (.node (successNode (s.node n)).rc (successNode (s.node n)).ev (successNode (s.node n)).bo
          (successNode (s.node n)).regs))
  | failure (n : NodeIx) (k : BitVec 16) : NodeEffect s (.onFailure n k)
      ((s.setNode n (failureNode k (s.node n)).regs).respond
        (.node (failureNode k (s.node n)).rc (failureNode k (s.node n)).ev (failureNode k (s.node n)).bo
          (failureNode k (s.node n)).regs))
  | tick (n : NodeIx) (k : BitVec 16) : NodeEffect s (.onBusOffTick n k)
      ((s.setNode n (tickNode Config.recoveryDelay k (s.node n)).regs).respond
        (.node (tickNode Config.recoveryDelay k (s.node n)).rc (tickNode Config.recoveryDelay k (s.node n)).ev
          (tickNode Config.recoveryDelay k (s.node n)).bo (tickNode Config.recoveryDelay k (s.node n)).regs))

/-- What a codec or CRC command that answers has done: one response, and for a DECODE that succeeds, draws counted. -/
inductive StatelessEffect (s : State) : Instr → State → Prop where
  | error (i : Instr) (rc : ResultCode) (h : StatelessCommand i) : StatelessEffect s i (s.respond (.error rc))
  | decoded (f : RawFrame) (sigs : List DecodedSignal) (k : Nat) :
      StatelessEffect s (.decode f) ((s.respond (.decoded sigs)).draw k)
  | framed (id : Word) (ext : Bool) (vs : List (Byte × F64)) (f : RawFrame) :
      StatelessEffect s (.encode id ext vs) (s.respond (.frame f))
  | crc (p : List Byte) : StatelessEffect s (.crcCompute p) (s.respond (.crc (crc15 p)))
  | crcClass (r : List Byte) (c : BitVec 15) (e : List Byte) :
      StatelessEffect s (.crcClassify r c e) (s.respond (.crcClass (classify r c e)))

/-- Everything a command that answers can have done. -/
theorem exec_next {i : Instr} {s t : State} (h : exec i s = .next t) :
    s.valid = true ∧ (NodeEffect s i t ∨ StatelessEffect s i t) := by
  cases i with
  | decode f =>
    obtain ⟨hv, ⟨-, hb⟩ | ⟨-, rfl⟩⟩ := obey_next h
    · refine ⟨hv, .inr ?_⟩
      split at hb
      · exact raise_next hb ▸ .error _ _ (.decode f)
      · split at hb
        · cases hb
          exact .decoded ..
        · exact raise_next hb ▸ .error _ _ (.decode f)
    · exact ⟨hv, .inr (.error _ _ (.decode f))⟩
  | encode id e vs =>
    obtain ⟨hv, ⟨-, hb⟩ | ⟨-, rfl⟩⟩ := obey_next h
    · refine ⟨hv, .inr ?_⟩
      split at hb
      · exact raise_next hb ▸ .error _ _ (.encode id e vs)
      · split at hb
        · exact raise_next hb ▸ .error _ _ (.encode id e vs)
        · cases hb
          exact .framed ..
    · exact ⟨hv, .inr (.error _ _ (.encode id e vs))⟩
  | crcCompute p =>
    obtain ⟨hv, ⟨-, hb⟩ | ⟨-, rfl⟩⟩ := obey_next h
    · cases hb
      exact ⟨hv, .inr (.crc p)⟩
    · exact ⟨hv, .inr (.error _ _ (.crcCompute p))⟩
  | crcClassify r c e =>
    obtain ⟨hv, ⟨-, hb⟩ | ⟨-, rfl⟩⟩ := obey_next h
    · cases hb
      exact ⟨hv, .inr (.crcClass r c e)⟩
    · exact ⟨hv, .inr (.error _ _ (.crcClassify r c e))⟩
  | onSuccess n =>
    obtain ⟨hv, ⟨-, hb⟩ | ⟨hw, -⟩⟩ := obey_next h
    · exact ⟨hv, .inl (finishNode_next hb ▸ .success n)⟩
    · cases hw
  | onFailure n k =>
    obtain ⟨hv, ⟨-, hb⟩ | ⟨hw, -⟩⟩ := obey_next h
    · exact ⟨hv, .inl (finishNode_next hb ▸ .failure n k)⟩
    · cases hw
  | onBusOffTick n k =>
    obtain ⟨hv, ⟨-, hb⟩ | ⟨hw, -⟩⟩ := obey_next h
    · exact ⟨hv, .inl (finishNode_next hb ▸ .tick n k)⟩
    · cases hw

/-- A command of a block that exists always answers. -/
theorem exec_of_valid {s : State} (h : s.valid = true) (i : Instr) : ∃ t, exec i s = .next t := by
  cases i <;>
    simp only [exec, execDecode, execEncode, execCrcCompute, execCrcClassify, execOnSuccess, execOnFailure,
      execOnBusOffTick, obey, onBlock_of_valid h, raise, finishNode] <;>
    (repeat' split) <;> exact ⟨_, rfl⟩

/-- Everything a step that answers can have done. -/
theorem step_next {s t : State} (h : step s = .next t) :
    (∃ i k, decode (leadingWords s.inputs) = .command i k ∧ exec i (s.consume k) = .next t) ∨
      (∃ e k, decode (leadingWords s.inputs) = .illegal e k ∧ s.valid = true ∧
        t = (s.consume k).respond (.error .illegal)) ∨
      (decode (leadingWords s.inputs) = .incomplete ∧ s.valid = true ∧
        ((∃ rest, afterWords s.inputs = .reset :: rest ∧ t = { s.resetNodes with inputs := rest }) ∨
          (afterWords s.inputs = [] ∧ t = s))) := by
  unfold step at h
  split at h
  · exact .inl ⟨_, _, ‹_›, h⟩
  · obtain ⟨hv, ht⟩ := execIllegal_next h
    exact .inr (.inl ⟨_, _, ‹_›, hv, ht⟩)
  · exact .inr (.inr ⟨‹_›, waitOrReset_next h⟩)

/-- The reset input leaves a block that exists. -/
theorem valid_resetNodes {s : State} (h : s.valid = true) (rest : List HostInput) :
    State.valid { s.resetNodes with inputs := rest } = true := by
  rw [State.valid_iff] at h ⊢
  refine ⟨h.1, fun n => ?_⟩
  rw [show State.node { s.resetNodes with inputs := rest } n = NodeRegs.reset from s.node_resetNodes n]
  decide

/-- What construction gives (R132). -/
theorem construct_ok {d : DescTable} {s : State} (h : construct d = .ok s) :
    tableOk d = true ∧ s = { State.reset with desc := d } := by
  unfold construct at h
  split at h
  · cases h
    exact ⟨‹_›, rfl⟩
  · cases h

end Sys2Proof.Machine
end

