-- ==== Sys2Proof/Tests/Slice0.lean ====
section
/-! SUPPORT. Tests and witnesses. The expected results are the vectors of spec/95_test_vectors.md, named in brackets, or
worked by hand from the rule named. Then, for each statement with hypotheses, a state and operands that meet them. -/

namespace Sys2Proof.Tests

open Sys2Proof Sys2Proof.Machine Sys2Proof.Safety

/-! ## The table and the states of the vectors -/

/-- The table `TBL` of 95_test_vectors.md section 0. -/
def tbl : DescTable :=
  [(0x123#32, ⟨8, [⟨24#32, 16#32, .littleEndian, 0x3FC0000000000000#64, 0#64, 1#32⟩]⟩),
   (0x200#32, ⟨8, [⟨0#32, 8#32, .littleEndian, 0x3FE0000000000000#64, 0xC044000000000000#64, 2#32⟩,
     ⟨8#32, 12#32, .bigEndian, 0x3F847AE147AE147B#64, 0#64, 3#32⟩,
     ⟨63#32, 1#32, .littleEndian, 0x3FF0000000000000#64, 0#64, 0#32⟩]⟩),
   (0x300#32, ⟨3, [⟨4#32, 12#32, .bigEndian, 0x3FF0000000000000#64, 0#64, 4#32⟩]⟩),
   (0x400#32, ⟨8, [⟨0#32, 64#32, .littleEndian, 0x3FF0000000000000#64, 0#64, 5#32⟩]⟩),
   (0x500#32, ⟨0, []⟩),
   (0x1FFFFFFF#32, ⟨2, [⟨0#32, 16#32, .bigEndian, 0xBFE0000000000000#64, 0x4059000000000000#64, 6#32⟩]⟩)]

/-- A block over that table, as reset leaves it. -/
def blk : State := { State.reset with desc := tbl }

/-- That block with the words sent. -/
def sent (ws : List Word) : State := { blk with inputs := ws.map .word }

/-- That block with the registers of node 0 given and the words sent. -/
def at0 (r : NodeRegs) (ws : List Word) : State := (sent ws).setNode 0 r

def ea (c : BitVec 16) : NodeRegs := ⟨c, .errorActive, false⟩
def ew (c : BitVec 16) : NodeRegs := ⟨c, .errorWarning, false⟩
def bo (c : BitVec 16) : NodeRegs := ⟨c, .busOff, true⟩

/-- The responses after one step. -/
def answers (s : State) : Option (List (List Word)) :=
  match step s with
  | .next t => some t.responses
  | .fault _ => none
  | .refused _ => none

/-- The registers of a node after one step. -/
def nodeAfter (n : NodeIx) (s : State) : Option NodeRegs :=
  match step s with
  | .next t => some (t.node n)
  | .fault _ => none
  | .refused _ => none

/-! ## WellFormed refuses each ill-formed term -/

theorem test_wf_decode_refuses_nine_bytes :
    (Instr.decode ⟨0#32, false, List.replicate 9 0#8⟩).wellFormed = false := by decide

theorem test_wf_encode_refuses_256_pairs :
    (Instr.encode 0#32 false (List.replicate 256 (0#8, 0#64))).wellFormed = false := by decide +kernel

theorem test_wf_crcCompute_refuses_nine_bytes :
    (Instr.crcCompute (List.replicate 9 0#8)).wellFormed = false := by decide

theorem test_wf_crcClassify_refuses_nine_received :
    (Instr.crcClassify (List.replicate 9 0#8) 0#15 []).wellFormed = false := by decide

theorem test_wf_crcClassify_refuses_nine_expected :
    (Instr.crcClassify [] 0#15 (List.replicate 9 0#8)).wellFormed = false := by decide

/-! ## Words written out from the formats of R42 to R47, field by field -/

/-- Format F (R44): OPC, 15 zeros, EXT, 4 zeros, LEN. -/
theorem test_decode_formatF :
    decode [0b00000001_000000000000000_1_0000_0010#32, 0x1FFFFFFF#32, 0x00006400#32, 0#32]
      = .command (.decode ⟨0x1FFFFFFF#32, true, [0x00#8, 0x64#8]⟩) 4 := by decide

/-- Format E (R47): OPC, 15 zeros, EXT, NSIG; then ID; then 24 zeros and SIDX, VLO, VHI. -/
theorem test_decode_formatE :
    decode [0b00000010_000000000000000_0_00000001#32, 0x200#32, 0b000000000000000000000000_00000001#32, 0x66666666#32,
        0x400A6666#32]
      = .command (.encode 0x200#32 false [(1#8, 0x400A666666666666#64)]) 5 := by decide

/-- Format P (R45): OPC, 20 zeros, LEN. -/
theorem test_decode_formatP :
    decode [0b00010000_00000000000000000000_0011#32, 0x00C3B2A1#32, 0#32]
      = .command (.crcCompute [0xA1#8, 0xB2#8, 0xC3#8]) 3 := by decide

/-- Format C (R46): OPC, ELEN, RLEN, 0, CRC. -/
theorem test_decode_formatC :
    decode [0b00010001_0011_0010_0_111111111111111#32, 0x3412#32, 0#32, 0x003412#32, 0#32]
      = .command (.crcClassify [0x12#8, 0x34#8] 0x7FFF#15 [0x12#8, 0x34#8, 0x00#8]) 5 := by decide

/-- Format N (R42): OPC, NODE, IMM. -/
theorem test_decode_formatN_success :
    decode [0b00100000_00000001_0000000000000000#32] = .command (.onSuccess 1) 1 := by decide

theorem test_decode_formatN_failure :
    decode [0b00100001_00000001_1111111111111111#32] = .command (.onFailure 1 0xFFFF#16) 1 := by decide

theorem test_decode_formatN_tick :
    decode [0b00100010_00000000_0000000000000010#32] = .command (.onBusOffTick 0 2#16) 1 := by decide

/-- R49: each kind of malformed word is refused by name and consumes what its format says. -/
theorem test_decode_refuses_by_name :
    decode [0x03000000#32] = .illegal .reservedOpcode 1 ∧ decode [0x20000001#32] = .illegal .nonzeroReserved 1 ∧
    decode [0x10000009#32, 0#32, 0#32] = .illegal .lengthAbove8 3 ∧ decode [0x21020000#32] = .illegal .nodeOutOfRange 1 ∧
    decode [0x02000001#32, 0#32, 0x100#32, 0#32, 0#32] = .illegal .nonzeroReserved 5 := by decide

/-! ## One step of each command -/

/-- [D8, R137] a big-endian field over three bytes. -/
theorem test_decode_big_endian : answers (sent [0x01000003#32, 0x300#32, 0x00C3B2A1#32, 0#32])
    = some [[0x00000001#32, 0x00000B2C#32, 0#32, 0#32, 0x40A65800#32, 4#32]] := by decide +kernel

/-- [D4] one byte short of the field. -/
theorem test_decode_truncated : answers (sent [0x01000004#32, 0x123#32, 0x80000000#32, 0#32])
    = some [[0x11000000#32]] := by decide

/-- [E14] a repeated key: the last write stands. -/
theorem test_encode_repeated_key :
    answers (sent [0x02000002#32, 0x200#32, 0#32, 0#32, 0x40398000#32, 0#32, 0#32, 0#32])
      = some [[0x00000008#32, 0x200#32, 0x00000050#32, 0#32]] := by decide +kernel

/-- [E12] the first failing pair decides. -/
theorem test_encode_first_failure :
    answers (sent [0x02000002#32, 0x200#32, 0#32, 0#32, 0x408F4000#32, 5#32, 0#32, 0#32])
      = some [[0x21000000#32]] := by decide +kernel

/-- [C10] a trailing zero byte changes the CRC. -/
theorem test_crcCompute_trailing_zero : answers (sent [0x10000002#32, 0x00000001#32, 0#32])
    = some [[0x00004426#32]] := by decide +kernel

/-- [C12] byte 0 goes first. -/
theorem test_crcCompute_byte_order : answers (sent [0x10000002#32, 0x00001234#32, 0#32])
    = some [[0x000067A6#32]] := by decide +kernel

/-- [L4] the CRC test comes before the payloads. -/
theorem test_crcClassify_crc_first :
    answers (sent [0x118874F8#32, 0x81000000#32, 0x3E#32, 0x80000000#32, 0x3E#32]) = some [[0#32]] := by decide +kernel

/-- [L9] lengths 0 and 1 differ. -/
theorem test_crcClassify_lengths : answers (sent [0x11100001#32, 0#32, 0#32, 0#32, 0#32])
    = some [[2#32]] := by decide +kernel

/-- [N4] from ErrorWarning to ErrorActive. -/
theorem test_onSuccess_to_active : answers (at0 (ew 128#16) [0x20000000#32]) = some [[0x0080007F#32]] ∧
    nodeAfter 0 (at0 (ew 128#16) [0x20000000#32]) = some (ea 127#16) := by decide

/-- [N7] inert in BusOff. -/
theorem test_onSuccess_inert : answers (at0 (bo 256#16) [0x20000000#32]) = some [[0x00230100#32]] := by decide

/-- [N18] the counter is stored unclamped. -/
theorem test_onFailure_enters_busOff : answers (at0 (ew 250#16) [0x21000008#32]) = some [[0x00E30102#32]] ∧
    nodeAfter 0 (at0 (ew 250#16) [0x21000008#32]) = some (bo 258#16) := by decide

/-- [N28] InvalidIncrement is tested before the inert test. -/
theorem test_onFailure_negative_in_busOff : answers (at0 (bo 256#16) [0x2100FFFF#32])
    = some [[0x30230100#32]] := by decide

/-- R96, worked example: below the delay nothing happens. -/
theorem test_onBusOffTick_below : answers (at0 (bo 256#16) [0x22000001#32]) = some [[0x00230100#32]] := by decide

/-- R96, worked example: at the delay the node recovers. -/
theorem test_onBusOffTick_recovers : answers (at0 (bo 256#16) [0x22000002#32]) = some [[0x00800000#32]] ∧
    nodeAfter 0 (at0 (bo 256#16) [0x22000002#32]) = some (ea 0#16) := by decide

/-! ## The host's table words -/

theorem test_decodeTableWord : decodeTableWord 32 0x21000008 = some (.onFailure 0 8#16) := by decide

/-- A DECODE given by its header alone: the words after it are 0, and the empty table has no entry. -/
theorem test_withFetchWord : answers (State.reset.withFetchWord 32 0x01000000) = some [[0x10000000#32]] := by decide

/-! ## Assembler lines (R52, R53) -/

theorem test_assemble_pseudo : assemble "TXFAIL 0".toList = some [0x21000008#32] ∧
    assemble "RXFAIL 1".toList = some [0x21010001#32] := by decide

/-- [D20] as a line. -/
theorem test_assemble_decode : assemble "DECODE 0x1FFFFFFF, 1, 2, 00:64".toList
    = some [0x01000102#32, 0x1FFFFFFF#32, 0x00006400#32, 0#32] := by decide

/-- [E10] as a line. -/
theorem test_assemble_encode : assemble "ENCODE 0x200, 0, 1=3.3".toList
    = some [0x02000001#32, 0x200#32, 1#32, 0x66666666#32, 0x400A6666#32] := by decide +kernel

/-- The second and fifth entry of `TBL`, as the lines of 95_test_vectors.md; `dlen` left out is 8. -/
theorem test_assembleTable : assembleTable
    ["FRAME 0x200, 8".toList, "  SIGNAL  0,  8, LE, 0.5,  -40.0,  2      -- sig 0; bits 0..7 (byte 0)".toList,
     "  SIGNAL  8, 12, BE, 0.01,  0.0,   3".toList, "  SIGNAL 63,  1, LE, 1.0,   0.0,   0".toList, "FRAME 0x500".toList]
    = some [(0x200#32, ⟨8, [⟨0#32, 8#32, .littleEndian, 0x3FE0000000000000#64, 0xC044000000000000#64, 2#32⟩,
        ⟨8#32, 12#32, .bigEndian, 0x3F847AE147AE147B#64, 0#64, 3#32⟩,
        ⟨63#32, 1#32, .littleEndian, 0x3FF0000000000000#64, 0#64, 0#32⟩]⟩), (0x500#32, ⟨8, []⟩)] := by decide +kernel

/-! ## CheckDescriptor (R14, R31) -/

/-- `TBL` passes; the mixed-order example of R31 does not. -/
theorem test_checkDescriptor : checkDescriptor tbl = .ok ∧
    checkDescriptor [(1#32, ⟨8, [⟨0#32, 8#32, .littleEndian, 0#64, 0#64, 0#32⟩,
      ⟨56#32, 8#32, .bigEndian, 0#64, 0#64, 0#32⟩]⟩)] = .configurationError := by decide

/-! ## f64 arithmetic -/

/-- R68: `U2F(2^64-1)` and `U2F(2^53+1)`; and the raw value of [D17]. -/
theorem test_u2f : toBits (u2f (2 ^ 64 - 1)) 0#64 = 0x43F0000000000000#64 ∧
    toBits (u2f (2 ^ 53 + 1)) 0#64 = 0x4340000000000000#64 ∧
    toBits (u2f 0xEFCDAB8967452301) 0#64 = 0x43EDF9B5712CE8A4#64 := by decide +kernel

/-- R64: `330 * 0.01`. -/
theorem test_fmul_rounds : toBits (fmul (u2f 330) (ofBits 0x3F847AE147AE147B#64)) 0#64 = 0x400A666666666667#64 := by
  decide +kernel

/-- R69: 2.5, 1.5 and -0.5 under both tie rules. -/
theorem test_roundInt : toBits (roundInt .halfEven (ofBits 0x4004000000000000#64)) 0#64 = 0x4000000000000000#64 ∧
    toBits (roundInt .halfAway (ofBits 0x4004000000000000#64)) 0#64 = 0x4008000000000000#64 ∧
    toBits (roundInt .halfEven (ofBits 0xBFE0000000000000#64)) 0#64 = 0x8000000000000000#64 ∧
    toBits (roundInt .halfAway (ofBits 0xBFE0000000000000#64)) 0#64 = 0xBFF0000000000000#64 := by decide +kernel

/-! ## Witnesses: for each statement, a state and operands that meet its hypotheses together -/

/-- DecodeOfEncodeGivesTheInstruction: the longest operands of each form. -/
theorem witness_wellFormed :
    (Instr.decode ⟨0xFFFFFFFF#32, true, List.replicate 8 0xFF#8⟩).wellFormed = true ∧
    (Instr.encode 0#32 true (List.replicate 255 (0xFF#8, 0#64))).wellFormed = true ∧
    (Instr.crcCompute []).wellFormed = true ∧
    (Instr.crcClassify (List.replicate 8 1#8) 0x7FFF#15 (List.replicate 8 1#8)).wellFormed = true ∧
    (Instr.onSuccess 1).wellFormed = true ∧ (Instr.onFailure 1 0x8000#16).wellFormed = true ∧
    (Instr.onBusOffTick 1 0xFFFF#16).wellFormed = true := by decide +kernel

/-- AcceptedWordsAreTheEncodersButForUnusedLanes: an accepted command for each of its clauses. The two CRC commands carry
bytes in lanes they do not use. -/
theorem witness_accepted :
    (decode [0x02000001#32, 1#32, 2#32, 3#32, 4#32] = .command (.encode 1#32 false [(2#8, 0x0000000400000003#64)]) 5 ∧
      ∃ id ext vs, Instr.encode 1#32 false [(2#8, 0x0000000400000003#64)] = .encode id ext vs) ∧
    (decode [0x2101FFFF#32, 0#32] = .command (.onFailure 1 0xFFFF#16) 1 ∧ NodeCommand 1 (.onFailure 1 0xFFFF#16)) ∧
    decode [0x01000008#32, 0x123#32, 0x04030201#32, 0x08070605#32]
      = .command (.decode ⟨0x123#32, false, [1#8, 2#8, 3#8, 4#8, 5#8, 6#8, 7#8, 8#8]⟩) 4 ∧
    decode [0x10000005#32, 0x04030201#32, 0xFFFFFF05#32] = .command (.crcCompute [1#8, 2#8, 3#8, 4#8, 5#8]) 3 ∧
    decode [0x11210000#32, 0xFFFFFF01#32, 0#32, 0xFFFF0302#32, 0#32] = .command (.crcClassify [1#8] 0#15 [2#8, 3#8]) 5 := by
  exact ⟨⟨by decide, _, _, _, rfl⟩, ⟨by decide, .failure _⟩, by decide, by decide, by decide⟩

/-- UnusedByteLanesAreIgnored: lengths 3 and 0, with other bytes in lane 3 and in lane 0. -/
theorem witness_lanes :
    (opc 0x01000003#32 = 0x01#8 ∧ ∀ i < field 0x01000003#32 0 4,
      (lanes 0x00C3B2A1#32 ++ lanes 0#32)[i]? = (lanes 0xFFC3B2A1#32 ++ lanes 0xFFFFFFFF#32)[i]?) ∧
    (opc 0x10000000#32 = 0x10#8 ∧ ∀ i < field 0x10000000#32 0 4,
      (lanes 0#32 ++ lanes 0#32)[i]? = (lanes 0xFFFFFFFF#32 ++ lanes 0#32)[i]?) ∧
    (opc 0x11370000#32 = 0x11#8 ∧
      (∀ i < field 0x11370000#32 16 4, (lanes 0#32 ++ lanes 0#32)[i]? = (lanes 0#32 ++ lanes 0xFF000000#32)[i]?) ∧
      (∀ i < field 0x11370000#32 20 4, (lanes 0#32 ++ lanes 0#32)[i]? = (lanes 0xFF000000#32 ++ lanes 0#32)[i]?)) := by
  decide

/-- IllegalCommandAnswersIllegal: `NODE` just past the last node, `LEN` 9, a reserved bit, an unknown opcode; and the last
node, which is legal. -/
theorem witness_illegal :
    (BlockInv (sent [0x21020000#32]) ∧ leadingWords (sent [0x21020000#32]).inputs = [0x21020000#32] ∧
      wordsOf 0x21020000#32 ≤ 1 ∧ Malformed 0x21020000#32 []) ∧
    (wordsOf 0x10000009#32 ≤ 3 ∧ Malformed 0x10000009#32 [0#32, 0#32]) ∧
    Malformed 0x20000001#32 [] ∧ Malformed 0xFF000000#32 [] ∧
    (BlockInv (sent [0x2101FFFF#32]) ∧ leadingWords (sent [0x2101FFFF#32]).inputs = [0x2101FFFF#32] ∧
      wordsOf 0x2101FFFF#32 ≤ 1 ∧ ¬ Malformed 0x2101FFFF#32 []) := by
  refine ⟨⟨by unfold BlockInv; decide, by decide, by decide, ?_⟩, ⟨by decide, .inr (by decide)⟩, .inl (by decide),
    trivial, by unfold BlockInv; decide, by decide, by decide, ?_⟩
  · change 2 ≤ field _ 16 8
    decide
  · change ¬ 2 ≤ field _ 16 8
    decide

/-- IncompleteCommandWaits: no word, and three words of the four a DECODE needs. -/
theorem witness_incomplete :
    (BlockInv blk ∧ blk.inputs = ([] : List Word).map .word ∧
      ∀ w0, ([] : List Word).head? = some w0 → ([] : List Word).length < wordsOf w0) ∧
    (BlockInv (sent [0x01000008#32, 1#32, 2#32]) ∧
      (sent [0x01000008#32, 1#32, 2#32]).inputs = [0x01000008#32, 1#32, 2#32].map .word ∧
      ∀ w0, [0x01000008#32, 1#32, 2#32].head? = some w0 → [0x01000008#32, 1#32, 2#32].length < wordsOf w0) := by
  refine ⟨⟨by unfold BlockInv; decide, rfl, by simp⟩, by unfold BlockInv; decide, rfl, ?_⟩
  rintro w0 ⟨⟩
  decide

/-- StepRunsTheDecodedCommand. -/
theorem witness_step : decode (leadingWords (sent [0x21000008#32, 7#32]).inputs) = .command (.onFailure 0 8#16) 1 := by
  decide

/-- SentCommandRuns: a command followed by a reset. -/
theorem witness_sent : (Instr.onSuccess 1).wellFormed = true ∧
    State.inputs { blk with inputs := [.word 0x20010000#32, .reset] }
      = (encode (.onSuccess 1)).map .word ++ [.reset] := by decide

/-- ResponseFieldsStandWhereStated: 64 signals, and a frame of 8 bytes. -/
theorem witness_response : (List.replicate 64 (⟨0#64, 0#64, 0#32⟩ : DecodedSignal)).length ≤ 64 ∧
    RawFrame.length ⟨0#32, true, List.replicate 8 0#8⟩ ≤ 8 := by decide

/-- ResetInputRecreatesTheNodes: a reset after one word of a DECODE, node 0 in BusOff. -/
theorem witness_reset :
    BlockInv { at0 (bo 256#16) [] with inputs := [.word 0x01000008#32, .reset, .word 1#32] } ∧
    decode (leadingWords [.word 0x01000008#32, .reset, .word 1#32]) = .incomplete ∧
    afterWords [.word 0x01000008#32, .reset, .word 1#32] = .reset :: [.word 1#32] := by
  refine ⟨by unfold BlockInv; decide, by decide, by decide⟩

/-- EveryStepKeepsTheInvariant, TableIsNeverWritten. -/
theorem witness_next : BlockInv (sent [0x21000008#32]) ∧
    ∃ t, step (sent [0x21000008#32]) = .next t := ⟨by unfold BlockInv; decide, _, rfl⟩

/-- ReachableRegistersAreRelated, ReachableCounterIsBounded: the host sends one ON_FAILURE of 32767 and the block steps. -/
theorem witness_reaches : ∃ t, construct tbl = .ok blk ∧ Reaches blk t ∧ (t.node 0).cnt = 32767#16 :=
  ⟨_, rfl, .step (.send [.word 0x21007FFF#32] .refl) rfl, by decide⟩

/-- StepAnswersExactlyWhenTheBlockExists: a block, and a state with an unreachable register. -/
theorem witness_exists : BlockInv blk ∧ ¬ BlockInv (at0 ⟨300#16, .errorActive, false⟩ []) := by
  unfold BlockInv
  decide

/-- FailingTableConstructsNothing: a field one bit past the end, and `TBL`. -/
theorem witness_construct :
    isMap [(1#32, (⟨8, [⟨57#32, 8#32, .littleEndian, 0#64, 0#64, 0#32⟩]⟩ : Entry))] = true ∧
    checkDescriptor [(1#32, ⟨8, [⟨57#32, 8#32, .littleEndian, 0#64, 0#64, 0#32⟩]⟩)] = .configurationError ∧
    isMap tbl = true ∧ checkDescriptor tbl = .ok := by decide

/-- EveryCommandGetsOneResponse: a legal and an illegal command. -/
theorem witness_command : BlockInv (sent [0x20000000#32]) ∧
    (∃ i, decode (leadingWords (sent [0x20000000#32]).inputs) = .command i 1) ∧
    (∃ e, decode (leadingWords (sent [0x20000001#32]).inputs) = .illegal e 1) :=
  ⟨by unfold BlockInv; decide, ⟨_, rfl⟩, ⟨_, rfl⟩⟩

/-- ErrorChangesNothing: UnknownFrameId, whose word is the code alone, and InvalidIncrement. -/
theorem witness_error :
    (∃ t r, exec (.decode ⟨0x124#32, false, []⟩) blk = .next t ∧ t.responses = blk.responses ++ [r] ∧
      responseCode r ≠ 0#8 ∧ responseCode r ≠ 0x30#8) ∧
    (∃ t r, exec (.onFailure 0 0xFFFF#16) blk = .next t ∧ t.responses = blk.responses ++ [r] ∧ responseCode r = 0x30#8) :=
  ⟨⟨_, _, rfl, rfl, by decide, by decide⟩, _, _, rfl, rfl, by decide⟩

/-- LabelHasTheStatedThresholds: the boundaries of its clauses. -/
theorem witness_label : label 127 = .errorActive ∧ label 128 = .errorWarning ∧ label 255 = .errorWarning ∧
    label 256 = .busOff := by decide

/-- OnSuccessResult, OnFailureResult, OnBusOffTickResult: a node in BusOff and one that is not. -/
theorem witness_node : (BlockInv (at0 (bo 256#16) []) ∧ ((at0 (bo 256#16) []).node 0).state = .busOff) ∧
    (BlockInv (at0 (ew 255#16) []) ∧ ((at0 (ew 255#16) []).node 0).state ≠ .busOff) := by
  unfold BlockInv
  decide

/-- OnFailureResult: the increments at the ends of its clauses; OnBusOffTickResult: `elapsed` at the delay and below. -/
theorem witness_operands : (0x8000#16).toInt < 0 ∧ (0xFFFF#16).toInt < 0 ∧ 0 ≤ (0#16).toInt ∧ 0 ≤ (0x7FFF#16).toInt ∧
    2 ≤ (2#16).toNat ∧ (1#16).toNat < 2 := by decide

/-- NodeCommandWritesOnlyItsNode, EventBitsReportTransitions. -/
theorem witness_node_command : NodeCommand 0 (.onFailure 0 8#16) ∧ (∃ t, exec (.onFailure 0 8#16) blk = .next t) ∧
    (1 : NodeIx) ≠ 0 := ⟨.failure _, ⟨_, rfl⟩, by decide⟩

/-- NodeCommandReadsOnlyItsNode: two states that agree on node 0 and not on node 1. -/
theorem witness_reads : BlockInv blk ∧ BlockInv (blk.setNode 1 (bo 256#16)) ∧
    blk.node 0 = (blk.setNode 1 (bo 256#16)).node 0 ∧ blk.node 1 ≠ (blk.setNode 1 (bo 256#16)).node 1 ∧
    ∃ t, exec (.onSuccess 0) blk = .next t :=
  ⟨by unfold BlockInv; decide, by unfold BlockInv; decide, by decide, by decide, _, rfl⟩

/-- OnlyARecoveringTickLeavesBusOff: by a tick, and by the reset input. -/
theorem witness_leaves :
    (∃ t, step (at0 (bo 256#16) [0x22000002#32]) = .next t ∧
      ((at0 (bo 256#16) [0x22000002#32]).node 0).state = .busOff ∧ t.node 0 ≠ (at0 (bo 256#16) [0x22000002#32]).node 0) ∧
    (∃ t, step { at0 (bo 256#16) [] with inputs := [.reset] } = .next t ∧
      ((at0 (bo 256#16) []).node 0).state = .busOff ∧ t.node 0 ≠ (at0 (bo 256#16) []).node 0) :=
  ⟨⟨_, rfl, by decide, by decide⟩, ⟨_, rfl, by decide, by decide⟩⟩

/-- BusOffIsEnteredExactlyPast255: 255 + 1 enters, 255 + 0 does not. -/
theorem witness_enters :
    (∃ t, exec (.onFailure 0 1#16) (at0 (ew 255#16) []) = .next t ∧ (t.node 0).state = .busOff) ∧
    (∃ t, exec (.onFailure 0 0#16) (at0 (ew 255#16) []) = .next t ∧ (t.node 0).state ≠ .busOff) ∧
    ((at0 (ew 255#16) []).node 0).state ≠ .busOff := ⟨⟨_, rfl, by decide⟩, ⟨_, rfl, by decide⟩, by decide⟩

/-- CrcComputeResult: the longest payload. -/
theorem witness_crcCompute : BlockInv blk ∧ (List.replicate 8 0xFF#8).length ≤ 8 := by
  unfold BlockInv
  decide

/-- CrcClassifyResult: its three classes, the second by length alone. -/
theorem witness_crcClassify :
    crc15 [0x12#8, 0x34#8] = 0x55C4#15 ∧
    (crc15 [0x00#8] ≠ 1#15 ∧ ([0x00#8] : List Byte).length ≠ ([0x00#8, 0x00#8] : List Byte).length) ∧
    (crc15 [0x12#8, 0x34#8] ≠ 0x55C5#15 ∧ ∃ i : Nat, i < 2 ∧ ([0x12#8, 0x34#8] : List Byte)[i]? ≠ ([0x12#8, 0x35#8] : List Byte)[i]?) ∧
    crc15 [] ≠ 1#15 := by
  refine ⟨by decide +kernel, ⟨by decide +kernel, by decide⟩, ⟨by decide +kernel, 1, by decide, by decide⟩, by decide +kernel⟩

/-- CrcIsLinear; CrcDetectsEverySingleBitDifference: the last bit of the last byte. -/
theorem witness_crc_lists : ([0x12#8, 0x34#8] : List Byte).length = ([0xFF#8, 0x00#8] : List Byte).length ∧
    1 < ([0x12#8, 0x34#8] : List Byte).length ∧ 7 < 8 := by decide

/-- PayloadBitLivesWhereStated: the last bit of eight bytes (in R28, payload bit 63 and payload bit 7). PayloadBytesInvertsPayloadInt: the largest integer. -/
theorem witness_payload : 63 < 8 * (List.replicate 8 0#8).length ∧ 2 ^ 64 - 1 < 2 ^ (8 * 8) := by decide

/-- InsertReplacesExactlyItsField: the widest field, and a field with one on each side of it. -/
theorem witness_insert : (1 ≤ 64 ∧ 64 ≤ 64 ∧ 0 + 64 ≤ 8 * (List.replicate 8 0#8).length ∧ 2 ^ 64 - 1 < 2 ^ 64) ∧
    (1 ≤ 12 ∧ 12 ≤ 64 ∧ 4 + 12 ≤ 8 * (List.replicate 3 0#8).length ∧ 4095 < 2 ^ 12 ∧ 0 + 4 ≤ 4 ∧ 4 + 12 ≤ 16 ∧ 3 < 4) := by
  decide

/-- CheckedEntryHasAtMostOneSignalPerBit: an entry with a signal and the entry of length 0. LookupFindsTheEntryOfTheId. -/
theorem witness_lookup : isMap tbl = true ∧ checkDescriptor tbl = .ok ∧
    lookup tbl 0x400#32 = some ⟨8, [⟨0#32, 64#32, .littleEndian, 0x3FF0000000000000#64, 0#64, 5#32⟩]⟩ ∧
    lookup tbl 0x500#32 = some ⟨0, []⟩ ∧ lookup tbl 0x999#32 = none := by decide

/-- DecodeResult: each of its three clauses, the second one bit short, the third with no bit to spare. -/
theorem witness_decode : BlockInv blk ∧ RawFrame.length ⟨0x123#32, false, List.replicate 5 0#8⟩ ≤ 8 ∧
    lookup blk.desc 0x999#32 = none ∧
    ∃ e, lookup blk.desc 0x123#32 = some e ∧ (∃ l ∈ e.signals, 8 * 4 < l.startBit.toNat + l.bitLength.toNat) ∧
      ∀ l ∈ e.signals, l.startBit.toNat + l.bitLength.toNat ≤ 8 * 5 :=
  ⟨by unfold BlockInv; decide, by decide, by decide, _, rfl, by decide, by decide⟩

/-- EncodeResult: a good pair, then a bad one of each kind; and pairs that are all good. -/
theorem witness_encode : BlockInv blk ∧ lookup blk.desc 0x999#32 = none ∧
    ∃ e l, lookup blk.desc 0x200#32 = some e ∧ e.signals[0]? = some l ∧
      List.Forall₂ (PairGives e) [(0#8, 0x40398000_00000000#64)] [(l, 131)] ∧
      e.signals.length ≤ (3#8).toNat ∧ ∀ raw, ¬ RawIs 0x408F4000_00000000#64 l raw := by
  refine ⟨by unfold BlockInv; decide, by decide, _, _, rfl, rfl, .cons ⟨rfl, false, ?_⟩ .nil, by decide, ?_⟩
  · decide +kernel
  · rintro raw ⟨neg, h, -, hr⟩
    have h2 : roundInt .halfEven (fdiv (fsub (ofBits 0x408F400000000000#64) (ofBits 0xC044000000000000#64))
      (ofBits 0x3FE0000000000000#64)) = .fin false (2080 * fone) := by decide +kernel
    rw [show roundInt .halfEven _ = _ from h2] at h
    injection h with _ h
    have := Nat.eq_of_mul_eq_mul_right (show 0 < fone by rw [fone]; exact Nat.two_pow_pos _) h
    subst this
    exact absurd hr (by decide)

/-- DecodeInvertsEncode: [E14], a key given twice and two signals no pair names. -/
theorem witness_round_trip : BlockInv blk ∧
    ∃ e p, lookup blk.desc 0x200#32 = some e ∧
      encodePairs .halfEven e [(0#8, 0x40398000_00000000#64), (0#8, 0#64)] (List.replicate e.dlen 0#8) = .ok p ∧
      [(0#8, (0x40398000_00000000#64 : F64)), (0#8, 0#64)] = [(0#8, 0x40398000_00000000#64)] ++ (BitVec.ofNat 8 0, 0#64) :: [] ∧
      (∀ kv ∈ [(0#8, (0x40398000_00000000#64 : F64)), (0#8, 0#64)], kv.1 ≠ BitVec.ofNat 8 1) := by
  refine ⟨by unfold BlockInv; decide, _, [0x50#8, 0#8, 0#8, 0#8, 0#8, 0#8, 0#8, 0#8], rfl, ?_, rfl, by simp⟩
  decide +kernel

/-- CodecAndCrcChangeNoRegister, ResponseDependsOnTableAndOperandsAlone: two states that differ in a node. -/
theorem witness_stateless : StatelessCommand (.crcCompute [0x80#8]) ∧ BlockInv blk ∧ BlockInv (blk.setNode 1 (bo 256#16)) ∧
    blk.desc = (blk.setNode 1 (bo 256#16)).desc ∧ blk.draws = (blk.setNode 1 (bo 256#16)).draws ∧
    ∃ t, exec (.crcCompute [0x80#8]) blk = .next t :=
  ⟨.crcCompute _, by unfold BlockInv; decide, by unfold BlockInv; decide, rfl, rfl, _, rfl⟩

/-- BitPatternsAndValuesAgree: the smallest subnormal, and a NaN. -/
theorem witness_bits : ofBits 1#64 = .fin false 1 ∧ ofBits 0x7FF8000000000000#64 = .nan := by decide

/-- RoundingIsToNearestEven: a tie between two subnormals, and the least quotient that is infinite. -/
theorem witness_rounding : (0 < 2 ∧ 1 < (2 ^ 54 - 1) * 2 ^ 2044 * 2 ∧ ofBits 0#64 = .fin false 0) ∧
    (2 ^ 54 - 1) * 2 ^ 2044 * 1 ≤ (2 ^ 54 - 1) * 2 ^ 2044 := by decide +kernel

/-- ExactResultsAreNotRounded, RoundIntIsTheNearestInteger, FitsIsTheUnsignedRange: 1.0 and `2^52`; the integer 0 in one
bit. -/
theorem witness_values : ofBits 0x3FF0000000000000#64 = .fin false (1 * fone) ∧
    (ofBits 0x4330000000000000#64 = .fin false (2 ^ 52 * fone) ∧ 2 ^ 52 * fone ≤ 2 ^ 52 * fone) ∧
    ofBits 0#64 = .fin false (0 * fone) := by decide +kernel

/-- OperationsRoundTheExactResultOnce: sums and differences that are zero and that are not; a magnitude that is not. -/
theorem witness_signed : signed false 1 + signed true 1 = 0 ∧ signed true 1 + signed true 0 ≠ 0 ∧
    signed true 1 - signed true 1 = 0 ∧ signed false 0 - signed false 1 ≠ 0 ∧ 0 < 1 := by decide

/-- ConversionIsToNearestEvenAndExactTo53Bits: the largest raw, and the tie at 2^53 + 1 between two f64s as near, the even
one of which is taken [D15, D16]; 53 ones below `2^64`, and `2^63`. -/
theorem witness_conversion :
    (2 ^ 64 - 1 < 2 ^ 64 ∧ 2 ^ 53 + 1 < 2 ^ 64 ∧
      ofBits 0x4340000000000000#64 = .fin false (2 ^ 53 * fone) ∧
      ofBits 0x4340000000000001#64 = .fin false ((2 ^ 53 + 2) * fone)) ∧
    (2 ^ 53 - 1 ≤ 2 ^ 53 ∧ (2 ^ 53 - 1) * 2 ^ 11 < 2 ^ 64) ∧ (2 ^ 53 ≤ 2 ^ 53 ∧ 2 ^ 53 * 2 ^ 10 < 2 ^ 64) := by
  decide +kernel

/-- A one-bit layout with a factor and an offset. -/
def oneBit (factor offset : F64) : SignalLayout := ⟨0#32, 1#32, .littleEndian, factor, offset, 0#32⟩

/-- AcceptedRawValueFitsItsField, RawValueIsTheRoundedQuotient: 1.4 in one bit [E26]. -/
theorem witness_raw : rawOf .halfEven 0x3FF6666666666666#64 (oneBit 0x3FF0000000000000#64 0#64) = some 1 := by
  decide +kernel

/-- SpecialFactorsBehaveAsStated: a factor of `-0` under a finite and an infinite offset, a NaN factor, a NaN offset, a NaN
and an infinite value, and an infinite factor with a finite difference and offset, with an infinite difference, and
with an infinite offset of either sign. -/
theorem witness_special : 1 < 2 ^ 64 ∧ 0 < 1 ∧
    ((∃ neg, ofBits (oneBit 0x8000000000000000#64 0x3FF0000000000000#64).factor = .fin neg 0) ∧
      ofBits (oneBit 0x8000000000000000#64 0x3FF0000000000000#64).offset = .fin false fone ∧
      ofBits (oneBit 0x8000000000000000#64 0xFFF0000000000000#64).offset = .inf true) ∧
    ofBits (oneBit 0x7FF8000000000000#64 0#64).factor = .nan ∧ ofBits (oneBit 0#64 0x7FF8000000000000#64).offset = .nan ∧
    ofBits 0x7FF8000000000000#64 = .nan ∧ ofBits 0x7FF0000000000000#64 = .inf false ∧
    (ofBits (oneBit 0xFFF0000000000000#64 0#64).factor = .inf true ∧
      fsub (ofBits 0x3FF0000000000000#64) (ofBits 0#64) = .fin false fone ∧ ofBits 0#64 = .fin false 0 ∧
      (∀ neg mag, fsub (ofBits 0x7FEFFFFFFFFFFFFF#64) (ofBits 0xFFEFFFFFFFFFFFFF#64) ≠ .fin neg mag) ∧
      ofBits (oneBit 0xFFF0000000000000#64 0xFFF0000000000000#64).offset = .inf true ∧
      ofBits (oneBit 0xFFF0000000000000#64 0x7FF0000000000000#64).offset = .inf (!true)) := by
  have hinf : fsub (ofBits 0x7FEFFFFFFFFFFFFF#64) (ofBits 0xFFEFFFFFFFFFFFFF#64) = .inf false := by decide +kernel
  refine ⟨by decide, by decide, ⟨⟨true, by decide⟩, by decide +kernel, by decide⟩, by decide, by decide, by decide, by decide,
    by decide, by decide +kernel, by decide, ?_, by decide, by decide⟩
  rw [hinf]
  exact fun _ _ => FVal.noConfusion

end Sys2Proof.Tests
end

/-! The words of format N as numbers (R42), and the pseudo-instructions that are one of them (R53). -/

namespace Sys2Proof.Proofs

/-- R42: the opcode stands in bits 31:24, the node in bits 23:16 and the immediate in bits 15:0. -/
theorem map_toNat_encodeFormatN (op : Opcode) (n : NodeIx) (i : BitVec 16) :
    (encodeFormatN op n i).map BitVec.toNat = [2 ^ 24 * op.code.toNat + i.toNat + 2 ^ 16 * n.val] := by
  have hnode : (BitVec.ofNat 8 n.val).toNat = n.val := by
    rw [BitVec.toNat_ofNat, Nat.mod_eq_of_lt (Nat.lt_trans n.isLt (by decide))]
  rw [encodeFormatN, List.map_singleton, BitVec.toNat_append, BitVec.toNat_append,
    ← Nat.shiftLeft_add_eq_or_of_lt i.isLt, ← Nat.shiftLeft_add_eq_or_of_lt (BitVec.ofNat 8 n.val).isLt, hnode]
  simp only [Nat.shiftLeft_eq, List.cons.injEq, and_true]
  omega

/-- R42, R48: the one word of ON_FAILURE, for every increment. -/
theorem map_toNat_encode_onFailure (n : NodeIx) (i : BitVec 16) :
    (encode (.onFailure n i)).map BitVec.toNat = [0x21000000 + i.toNat + 65536 * n.val] :=
  map_toNat_encodeFormatN .onFailure n i

/-- Settles O58: each pseudo-instruction is ON_FAILURE with its increment, so its word is that command's. -/
theorem pseudoInstructionsAreOnFailure : Obligations.PseudoInstructionsAreOnFailure := fun n =>
  ⟨rfl, rfl, map_toNat_encode_onFailure n Config.txFailInc, map_toNat_encode_onFailure n Config.rxFailInc⟩

end Sys2Proof.Proofs

/-! What one step does to the table and to each node, said once, and the invariants that follow from it
(R10, R13, R14, R17). -/

namespace Sys2Proof.Proofs

open Machine Safety

/-! ## What a step does to one node -/

/-- How the registers of one node can change in one step: not at all, by the reset input, or by a node command. -/
inductive NodeMove (r : NodeRegs) : NodeRegs → Prop where
  | stay : NodeMove r r
  | reset : NodeMove r .reset
  | success : NodeMove r (successNode r).regs
  | failure (increment : BitVec 16) : NodeMove r (failureNode increment r).regs
  | tick (delay elapsed : BitVec 16) : NodeMove r (tickNode delay elapsed r).regs

/-- A move of the node that is written is a move of every node. -/
theorem nodeMove_setNode {s : State} {n : NodeIx} {r : NodeRegs} (h : NodeMove (s.node n) r) (m : NodeIx) :
    NodeMove (s.node m) ((s.setNode n r).node m) := by
  rw [State.node_setNode]
  split
  · next hm => exact hm ▸ h
  · exact .stay

/-- A node command moves every node and leaves the table. -/
theorem nodeEffect_moves {i : Instr} {s t : State} (h : NodeEffect s i t) :
    t.desc = s.desc ∧ ∀ n, NodeMove (s.node n) (t.node n) := by
  cases h with
  | success n => exact ⟨rfl, nodeMove_setNode .success⟩
  | failure n k => exact ⟨rfl, nodeMove_setNode (.failure k)⟩
  | tick n k => exact ⟨rfl, nodeMove_setNode (.tick Config.recoveryDelay k)⟩

/-- R18, R21: a codec or CRC command leaves nodes, table and stream, and returns one response. -/
theorem statelessEffect_frame {i : Instr} {s t : State} (h : StatelessEffect s i t) :
    t.nodes = s.nodes ∧ t.desc = s.desc ∧ t.inputs = s.inputs ∧ ∃ r, t.responses = s.responses ++ [r] := by
  cases h <;> exact ⟨rfl, rfl, rfl, _, rfl⟩

/-- States with the same nodes read every node alike. -/
theorem node_congr {s t : State} (h : t.nodes = s.nodes) (n : NodeIx) : t.node n = s.node n := by
  rw [State.node, State.node, h]

/-- Only a block that exists steps, and the step leaves the table and moves each node. -/
theorem step_moves {s t : State} (h : step s = .next t) :
    s.valid = true ∧ t.desc = s.desc ∧ ∀ n, NodeMove (s.node n) (t.node n) := by
  rcases step_next h with ⟨i, k, -, he⟩ | ⟨e, k, -, hv, rfl⟩ | ⟨-, hv, ⟨rest, -, rfl⟩ | ⟨-, rfl⟩⟩
  · obtain ⟨hv, hnode | hstateless⟩ := exec_next he
    · obtain ⟨hdesc, hmoves⟩ := nodeEffect_moves hnode
      exact ⟨hv, hdesc, hmoves⟩
    · obtain ⟨hnodes, hdesc, -, -⟩ := statelessEffect_frame hstateless
      exact ⟨hv, hdesc, fun n => node_congr hnodes n ▸ .stay⟩
  · exact ⟨hv, rfl, fun _ => .stay⟩
  · exact ⟨hv, rfl, fun n => (s.node_resetNodes n).symm ▸ .reset⟩
  · exact ⟨hv, rfl, fun _ => .stay⟩

/-! ## What a move keeps -/

/-- R17: every move keeps the relation of the three registers. -/
theorem nodeMove_ok {r r' : NodeRegs} (h : NodeMove r r') (hr : r.ok = true) : r'.ok = true := by
  cases h with
  | stay => exact hr
  | reset => decide
  | success => exact successNode_ok hr
  | failure k => exact failureNode_ok k hr
  | tick d k => exact tickNode_ok d k hr

theorem successNode_cnt_le {r : NodeRegs} (hr : r.ok = true) : (successNode r).regs.cnt.toNat ≤ r.cnt.toNat := by
  unfold successNode
  split
  · exact le_rfl
  · next hb =>
    rw [toNat_success (NodeRegs.cnt_le_of_ok hr hb)]
    exact Nat.sub_le ..

/-- R93 (e): a node outside BusOff has a counter of at most 255, and an increment adds at most 32767. -/
theorem failureNode_cnt_le {r : NodeRegs} (k : BitVec 16) (hr : r.ok = true) (hc : r.cnt.toNat ≤ 33022) :
    (failureNode k r).regs.cnt.toNat ≤ 33022 := by
  have added (hk : ¬ k.toInt < 0) (hb : r.state ≠ .busOff) :
      (BitVec.ofNat 16 (r.cnt.toNat + k.toInt.toNat)).toNat ≤ 33022 := by
    have h255 := NodeRegs.cnt_le_of_ok hr hb
    rw [toNat_failure h255 hk]
    exact Nat.add_le_add h255 (increment_le hk)
  dsimp only [failureNode]
  split_ifs with hk hb
  · exact hc
  · exact hc
  · exact added hk hb
  · exact added hk hb

theorem tickNode_cnt_le (d k : BitVec 16) (r : NodeRegs) : (tickNode d k r).regs.cnt.toNat ≤ r.cnt.toNat := by
  unfold tickNode
  split_ifs
  · exact le_rfl
  · exact Nat.zero_le _
  · exact le_rfl

/-- R10: every move keeps the counter at most 255 + 32767. -/
theorem nodeMove_cnt_le {r r' : NodeRegs} (h : NodeMove r r') (hr : r.ok = true) (hc : r.cnt.toNat ≤ 33022) :
    r'.cnt.toNat ≤ 33022 := by
  cases h with
  | stay => exact hc
  | reset => decide
  | success => exact (successNode_cnt_le hr).trans hc
  | failure k => exact failureNode_cnt_le k hr hc
  | tick d k => exact (tickNode_cnt_le d k r).trans hc

/-! ## The invariants of a step and of a run -/

/-- Settles O13: a step leaves the table and moves each node, and a move keeps the relation of its registers. -/
theorem everyStepKeepsTheInvariant : Obligations.EveryStepKeepsTheInvariant := by
  intro s t hs h
  obtain ⟨-, hdesc, hmove⟩ := step_moves h
  obtain ⟨htable, hok⟩ := s.valid_iff.1 hs
  exact t.valid_iff.2 ⟨hdesc ▸ htable, fun n => nodeMove_ok (hmove n) (hok n)⟩

/-- Settles O18: no way a step can go touches the table. -/
theorem tableIsNeverWritten : Obligations.TableIsNeverWritten := by
  intro s t h
  obtain ⟨-, hdesc, -⟩ := step_moves h
  exact hdesc

/-- Over any table, the state that reset leaves has every node as created (R20). -/
theorem node_reset (d : DescTable) (n : NodeIx) : State.node { State.reset with desc := d } n = .reset :=
  State.node_resetNodes { State.reset with desc := d } n

theorem valid_reset {d : DescTable} (h : tableOk d = true) : State.valid { State.reset with desc := d } = true :=
  (State.valid_iff _).2 ⟨h, fun n => by rw [node_reset]; decide⟩

/-- A predicate on the registers of one node that every move keeps holds of every node of a reachable state when it
holds of a node as created; the state is then a block that exists. -/
theorem reachable_node {P : NodeRegs → Prop} (hreset : P .reset)
    (hmove : ∀ r r', NodeMove r r' → r.ok = true → P r → P r') {d : DescTable} {s t : State}
    (hs : construct d = .ok s) (ht : Reaches s t) : t.valid = true ∧ ∀ n, P (t.node n) := by
  obtain ⟨htable, rfl⟩ := construct_ok hs
  induction ht with
  | refl => exact ⟨valid_reset htable, fun n => (node_reset d n).symm ▸ hreset⟩
  | step _ hstep ih =>
    obtain ⟨hv, hP⟩ := ih
    obtain ⟨-, -, hmoves⟩ := step_moves hstep
    obtain ⟨-, hok⟩ := (State.valid_iff _).1 hv
    exact ⟨everyStepKeepsTheInvariant _ _ hv hstep, fun n => hmove _ _ (hmoves n) (hok n) (hP n)⟩
  | send xs _ ih => exact ih

theorem label_eq_errorActive_iff (c : Nat) : label c = .errorActive ↔ c < 128 := by
  simp only [label, show Config.warnThreshold = 128 from rfl, show Config.busOffLimit = 255 from rfl]
  split_ifs with h <;> simp [h]

theorem label_eq_errorWarning_iff (c : Nat) : label c = .errorWarning ↔ 128 ≤ c ∧ c ≤ 255 := by
  simp only [label, show Config.warnThreshold = 128 from rfl, show Config.busOffLimit = 255 from rfl]
  split_ifs <;> simp <;> omega

/-- Settles O14: every reachable node is as R17 says, so `STATE` is the label of `CNT`. -/
theorem reachableRegistersAreRelated : Obligations.ReachableRegistersAreRelated := by
  intro d s t hs ht n
  obtain ⟨-, hok⟩ := reachable_node (P := fun r => r.ok = true) (by decide) (fun _ _ hm hr _ => nodeMove_ok hm hr) hs ht
  obtain ⟨hstate, hrec⟩ := (NodeRegs.ok_iff _).1 (hok n)
  refine ⟨?_, ?_, ?_, ?_, hrec⟩ <;> rw [hstate]
  · exact label_eq_errorActive_iff _
  · exact label_eq_errorWarning_iff _
  · exact label_eq_busOff_iff _
  · exact label_ne_errorPassive _

/-- Settles O15: a node is created with counter 0, and every move keeps the bound. -/
theorem reachableCounterIsBounded : Obligations.ReachableCounterIsBounded := by
  intro d s t hs ht
  obtain ⟨-, hcnt⟩ := reachable_node (P := fun r => r.cnt.toNat ≤ 33022) (by decide)
    (fun _ _ => nodeMove_cnt_le) hs ht
  exact hcnt

/-- Settles O10: the reset table of R20, node by node. -/
theorem resetLeavesEveryNodeAsCreated : Obligations.ResetLeavesEveryNodeAsCreated := by
  intro n
  rw [show State.reset.node n = .reset from node_reset [] n]
  exact ⟨rfl, rfl, rfl⟩

/-- Settles O12: the empty table passes the check, so reset leaves a block. -/
theorem resetMeetsTheInvariant : Obligations.ResetMeetsTheInvariant :=
  valid_reset (d := []) (by decide)

end Sys2Proof.Proofs

/-! Which registers a command reads and writes (R18, R21, R35, R122). -/

namespace Sys2Proof.Proofs

open Machine Safety

/-! ## The node commands -/

/-- A command addressed to a node is one function of the registers of that node (R21). -/
theorem exec_nodeCommand {n : NodeIx} {i : Instr} (h : NodeCommand n i) :
    ∃ f : NodeRegs → NodeResult, ∀ s, exec i s = onBlock s (finishNode n (f (s.node n)) s) := by
  cases h with
  | success => exact ⟨successNode, fun _ => rfl⟩
  | failure k => exact ⟨failureNode k, fun _ => rfl⟩
  | tick k => exact ⟨tickNode Config.recoveryDelay k, fun _ => rfl⟩

/-- Settles O25: the command is a write of its node and a response of one word. -/
theorem nodeCommandWritesOnlyItsNode : Obligations.NodeCommandWritesOnlyItsNode := by
  intro n i s t hi h
  obtain ⟨f, hf⟩ := exec_nodeCommand hi
  obtain ⟨-, hbody⟩ := onBlock_next (hf s ▸ h)
  obtain rfl := finishNode_next hbody
  exact ⟨fun _ hm => s.node_setNode_of_ne _ hm, rfl, rfl, rfl, _, rfl⟩

/-- Settles O26: both blocks apply the same function to equal registers. -/
theorem nodeCommandReadsOnlyItsNode : Obligations.NodeCommandReadsOnlyItsNode := by
  intro n i s s' t hi hs hs' hn h
  obtain ⟨f, hf⟩ := exec_nodeCommand hi
  rw [hf, onBlock_of_valid hs] at h
  obtain rfl := finishNode_next h
  refine ⟨_, _, (hf s').trans (onBlock_of_valid hs' _), ?_, rfl, ?_⟩
  · simp [hn]
  · simp [hn]

/-! ## The codec and CRC commands -/

theorem not_nodeEffect_of_stateless {i : Instr} {s t : State} (hi : StatelessCommand i) : ¬ NodeEffect s i t := by
  intro h
  cases h <;> cases hi

/-- What a codec or CRC command that answers has done. -/
theorem exec_statelessCommand_next {i : Instr} {s t : State} (hi : StatelessCommand i) (h : exec i s = .next t) :
    StatelessEffect s i t := by
  obtain ⟨-, hnode | hstateless⟩ := exec_next h
  · exact absurd hnode (not_nodeEffect_of_stateless hi)
  · exact hstateless

/-- Only DECODE counts free NaN values (log entry 2). -/
theorem statelessEffect_draws {i : Instr} {s t : State} (h : StatelessEffect s i t) (hi : ∀ f, i ≠ .decode f) :
    t.draws = s.draws := by
  cases h with
  | decoded f => exact absurd rfl (hi f)
  | error | framed | crc | crcClass => rfl

/-- Settles O46: what such a command can do is a response, and for DECODE draws. -/
theorem codecAndCrcChangeNoRegister : Obligations.CodecAndCrcChangeNoRegister := by
  intro i s t hi h
  have heffect := exec_statelessCommand_next hi h
  obtain ⟨hnodes, hdesc, hinputs, hresponse⟩ := statelessEffect_frame heffect
  exact ⟨hnodes, hdesc, hinputs, hresponse, statelessEffect_draws heffect⟩

/-- Over the table `d` with `k` free NaN values drawn, every block, whatever its nodes, its stream and its earlier
responses, completes `body` and appends one and the same response. -/
def RespondsAlike (d : DescTable) (k : Nat) (body : State → Result) : Prop :=
  ∃ r, ∀ s : State, s.valid = true → s.desc = d → s.draws = k →
    ∃ t, body s = .next t ∧ t.responses = s.responses ++ [r]

section
variable {d : DescTable} {k : Nat}

theorem respondsAlike_respond (r : Response) : RespondsAlike d k fun s => .next (s.respond r) :=
  ⟨r.words, fun _ _ _ _ => ⟨_, rfl, rfl⟩⟩

theorem respondsAlike_draw (r : Response) (m : Nat) : RespondsAlike d k fun s => .next ((s.respond r).draw m) :=
  ⟨r.words, fun _ _ _ _ => ⟨_, rfl, rfl⟩⟩

theorem respondsAlike_raise (rc : ResultCode) : RespondsAlike d k (raise rc) := respondsAlike_respond (.error rc)

/-- A body that is another one wherever the table is `d` and the count is `k` responds as that one does. -/
theorem respondsAlike_congr {body body' : State → Result}
    (h : ∀ s, s.desc = d → s.draws = k → body s = body' s) (h' : RespondsAlike d k body') : RespondsAlike d k body := by
  obtain ⟨r, hr⟩ := h'
  exact ⟨r, fun s hv hd hk => h s hd hk ▸ hr s hv hd hk⟩

/-- The check of the operands looks at no state (R49). -/
theorem respondsAlike_obey (i : Instr) {body : State → Result} (h : RespondsAlike d k body) :
    RespondsAlike d k fun s => obey i s (body s) := by
  cases hi : i.wellFormed with
  | true =>
    obtain ⟨r, hr⟩ := h
    refine ⟨r, fun s hv hd hk => ?_⟩
    simp only [obey_of_valid hv hi]
    exact hr s hv hd hk
  | false =>
    refine ⟨(Response.error .illegal).words, fun s hv _ _ => ⟨s.respond (.error .illegal), ?_, rfl⟩⟩
    simp [obey, onBlock_of_valid hv, hi, raise]

theorem respondsAlike_decode (f : RawFrame) : RespondsAlike d k (exec (.decode f)) := by
  refine respondsAlike_obey (.decode f) ?_
  cases hl : lookup d f.id with
  | none => exact respondsAlike_congr (fun s hd _ => by rw [hd, hl]) (respondsAlike_raise .unknownFrameId)
  | some e =>
    by_cases hfit : e.signals.all (SignalLayout.fitsIn f.length) = true
    · exact respondsAlike_congr (fun s hd hk => by simp only [hd, hk, hl, hfit, if_true])
        (respondsAlike_draw (.decoded (decodeSignals f.payload e.signals k)) e.signals.length)
    · exact respondsAlike_congr (fun s hd _ => by simp only [hd, hl, hfit, if_false, Bool.false_eq_true])
        (respondsAlike_raise .truncatedPayload)

theorem respondsAlike_encode (id : Word) (ext : Bool) (vs : List (Byte × F64)) :
    RespondsAlike d k (exec (.encode id ext vs)) := by
  refine respondsAlike_obey (.encode id ext vs) ?_
  cases hl : lookup d id with
  | none => exact respondsAlike_congr (fun s hd _ => by rw [hd, hl]) (respondsAlike_raise .unknownFrameId)
  | some e =>
    cases hp : encodePairs Config.roundTies e vs (List.replicate e.dlen 0#8) with
    | error rc =>
      exact respondsAlike_congr (fun s hd _ => by simp only [hd, hl, hp]) (respondsAlike_raise rc)
    | ok p =>
      exact respondsAlike_congr (fun s hd _ => by simp only [hd, hl, hp])
        (respondsAlike_respond (.frame { id := id, extended := ext, payload := p }))

/-- R18, R35: a codec or CRC command looks at the table, its operands and the count of free NaN values alone. -/
theorem respondsAlike_of_stateless {i : Instr} (h : StatelessCommand i) : RespondsAlike d k (exec i) := by
  cases h with
  | decode f => exact respondsAlike_decode f
  | encode id ext vs => exact respondsAlike_encode id ext vs
  | crcCompute p => exact respondsAlike_obey (.crcCompute p) (respondsAlike_respond (.crc (crc15 p)))
  | crcClassify r c e =>
    exact respondsAlike_obey (.crcClassify r c e) (respondsAlike_respond (.crcClass (classify r c e)))

end

/-- Settles O47: the two blocks are over one table with one count, so they append the same response. -/
theorem responseDependsOnTableAndOperandsAlone : Obligations.ResponseDependsOnTableAndOperandsAlone := by
  intro i s s' t hi hs hs' hd hk h
  obtain ⟨r, hr⟩ := respondsAlike_of_stateless (d := s'.desc) (k := s'.draws) hi
  obtain ⟨u, hu, hur⟩ := hr s hs hd hk
  obtain ⟨t', ht', htr'⟩ := hr s' hs' rfl rfl
  obtain rfl : t = u := Host.Outcome.next.inj (h.symm.trans hu)
  exact ⟨t', r, ht', hur, htr'⟩

end Sys2Proof.Proofs

/-! What CheckDescriptor checks, on the payload bits of R28 and R31 (R14), and how many signals that leaves room for. -/

namespace Sys2Proof.Proofs

open Machine Safety

/-- The payload bit numbers that the statement writes out are those of R28. -/
theorem occupiedBit_eq (l : SignalLayout) (dlen a : Nat) :
    occupiedBit l dlen a = physBit l.byteOrder dlen (l.start + a) := by
  unfold occupiedBit physBit byteIndex
  cases l.byteOrder <;> rfl

theorem disjoint_occupies_iff (dlen : Nat) (l l' : SignalLayout) :
    (∀ x ∈ l.occupies dlen, x ∉ l'.occupies dlen) ↔
      ∀ a b, a < l.width → b < l'.width → occupiedBit l dlen a ≠ occupiedBit l' dlen b := by
  simp only [mem_occupies, occupiedBit_eq]
  constructor
  · intro h a b ha hb heq
    exact h _ ⟨a, ha, rfl⟩ ⟨b, hb, heq.symm⟩
  · rintro h _ ⟨a, ha, rfl⟩ ⟨b, hb, heq⟩
    exact h a b ha hb heq.symm

/-- A relation that is symmetric holds of the pairs of a list in order exactly when it holds at any two positions. -/
theorem pairwise_iff_getElem_ne {α : Type} {R : α → α → Prop} (hR : ∀ x y, R x y → R y x) (l : List α) :
    l.Pairwise R ↔ ∀ (i j : Nat) (hi : i < l.length) (hj : j < l.length), i ≠ j → R l[i] l[j] := by
  rw [List.pairwise_iff_getElem]
  constructor
  · intro h i j hi hj hne
    rcases Nat.lt_or_gt_of_ne hne with hlt | hgt
    · exact h i j hi hj hlt
    · exact hR _ _ (h j i hj hi hgt)
  · exact fun h i j hi hj hlt => h i j hi hj hlt.ne

/-- Settles O39: entry by entry, the check of each layout and the disjointness of any two. -/
theorem checkDescriptorMeansItsConditions : Obligations.CheckDescriptorMeansItsConditions := by
  intro d
  rw [checkDescriptor_ok_iff]
  refine forall₂_congr fun kv _ => ?_
  rw [Entry.ok_iff, pairwise_iff_getElem_ne (fun x y h k hy hx => h k hx hy)]
  simp only [SignalLayout.ok_iff, disjoint_occupies_iff]
  rfl

/-- R31: the payload bit of a layout's bit 0. -/
def firstBit (dlen : Nat) (l : SignalLayout) : Nat := physBit l.byteOrder dlen l.start

theorem firstBit_mem_occupies {dlen : Nat} {l : SignalLayout} (h : l.ok dlen = true) :
    firstBit dlen l ∈ l.occupies dlen :=
  (mem_occupies ..).2 ⟨0, ((l.ok_iff dlen).1 h).1, rfl⟩

theorem firstBit_lt {dlen : Nat} {l : SignalLayout} (h : l.ok dlen = true) : firstBit dlen l < 8 * dlen := by
  obtain ⟨hwidth, -, hend⟩ := (l.ok_iff dlen).1 h
  exact physBit_lt (by omega)

/-- Each signal of a checked entry has a first bit of its own among the `8 * dlen` of the payload. -/
theorem length_signals_le {e : Entry} (h : e.ok = true) : e.signals.length ≤ 8 * e.dlen := by
  obtain ⟨-, hok, hdisjoint⟩ := e.ok_iff.1 h
  have hnodup : (e.signals.map (firstBit e.dlen)).Nodup := by
    rw [List.Nodup, List.pairwise_map]
    refine hdisjoint.imp_of_mem fun hl hl' hne heq => ?_
    exact hne _ (firstBit_mem_occupies (hok _ hl)) (heq ▸ firstBit_mem_occupies (hok _ hl'))
  have hsubset : e.signals.map (firstBit e.dlen) ⊆ List.range (8 * e.dlen) := by
    intro x hx
    obtain ⟨l, hl, rfl⟩ := List.mem_map.1 hx
    exact List.mem_range.2 (firstBit_lt (hok l hl))
  simpa using (hnodup.subperm hsubset).length_le

/-- Settles O40: an entry that is found has passed the check, and its `dlen` is at most 8. -/
theorem checkedEntryHasAtMostOneSignalPerBit : Obligations.CheckedEntryHasAtMostOneSignalPerBit := by
  intro d id e hd hl
  have he : e.ok = true := (checkDescriptor_ok_iff d).1 hd _ (mem_of_lookup hl)
  obtain ⟨hdlen, -, -⟩ := e.ok_iff.1 he
  have hlen := length_signals_le he
  exact ⟨hlen, by omega, fun h0 => List.eq_nil_of_length_eq_zero (by omega)⟩

end Sys2Proof.Proofs

/-! The words of a response as numbers and bytes (R43, R50, R51). -/

namespace Sys2Proof.Proofs

open Machine Safety

/-! ## Fields as numbers -/

/-- Two fields side by side are one number. -/
theorem toNat_append_eq_add {m n : Nat} (x : BitVec m) (y : BitVec n) :
    (x ++ y).toNat = x.toNat * 2 ^ n + y.toNat := by
  rw [BitVec.toNat_append, ← Nat.shiftLeft_add_eq_or_of_lt y.isLt, Nat.shiftLeft_eq]

theorem toNat_resultCode (rc : ResultCode) : rc.code.toNat = resultNumber rc := by
  cases rc <;> rfl

theorem toNat_nodeStateCode (st : NodeState) : st.code.toNat = stateNumber st := by
  cases st <;> rfl

/-- A header that begins with OK and zeros is the number of its last field. -/
theorem toNat_okHeader (z : Nat) {n : Nat} (x : BitVec n) : (ResultCode.ok.code ++ 0#z ++ x).toNat = x.toNat := by
  simp only [toNat_append_eq_add, toNat_resultCode, resultNumber, BitVec.toNat_ofNat, Nat.zero_mod, Nat.zero_mul,
    Nat.zero_add]

theorem toNat_bit (b : Bool) : (bit b).toNat = b.toNat := BitVec.toNat_ofBool b

/-! ## The decoded signals -/

theorem length_flatMap_signalWords (sigs : List DecodedSignal) : (sigs.flatMap signalWords).length = 5 * sigs.length := by
  induction sigs with
  | nil => rfl
  | cons d sigs ih =>
    rw [List.flatMap_cons, List.length_append, ih, List.length_cons, show (signalWords d).length = 5 from rfl]
    omega

/-- The five words of the signal at position `i` stand five times `i` words on. -/
theorem take_drop_flatMap_signalWords (sigs : List DecodedSignal) (i : Nat) (h : i < sigs.length) :
    ((sigs.flatMap signalWords).drop (5 * i)).take 5 = signalWords sigs[i] := by
  induction sigs generalizing i with
  | nil => exact absurd h (Nat.not_lt_zero i)
  | cons d sigs ih =>
    cases i with
    | zero => rfl
    | succ i =>
      have hdrop : ((d :: sigs).flatMap signalWords).drop (5 * (i + 1)) = (sigs.flatMap signalWords).drop (5 * i) := rfl
      rw [hdrop]
      exact ih i (Nat.lt_of_succ_lt_succ h)

/-- The header of a DECODE response is the number of its signals (R51). -/
theorem decodedHeader_eq {n : Nat} (h : n ≤ 64) :
    (ResultCode.ok.code ++ 0#16 ++ BitVec.ofNat 8 n : BitVec (8 + 16 + 8)) = BitVec.ofNat 32 n := by
  apply BitVec.eq_of_toNat_eq
  rw [toNat_okHeader, BitVec.toNat_ofNat, BitVec.toNat_ofNat]
  omega

/-! ## The frame -/

/-- The byte lanes of the two payload words are the bytes, then zeros (R43). -/
theorem getElem?_lanes_payload (p : List Byte) {i : Nat} (hi : i < 8) :
    (lanes (payloadLo p) ++ lanes (payloadHi p))[i]? = some (if h : i < p.length then p[i] else 0#8) := by
  rw [lanes_payload, List.getElem?_map, List.getElem?_range hi, Option.map_some, lane, List.getD_eq_getElem?_getD]
  split
  · next h => rw [List.getElem?_eq_getElem h, Option.getD_some]
  · next h => rw [List.getElem?_eq_none (Nat.le_of_not_lt h), Option.getD_none]

theorem toNat_frameHeader {f : RawFrame} (h : f.length ≤ 8) :
    (ResultCode.ok.code ++ 0#15 ++ bit f.extended ++ 0#4 ++ lenField f.payload : BitVec (8 + 15 + 1 + 4 + 4)).toNat
      = (if f.extended then 256 else 0) + f.length := by
  rw [toNat_append_eq_add, toNat_append_eq_add, toNat_okHeader, toNat_bit, lenField_toNat h]
  cases f.extended <;> rfl

/-! ## The other responses -/

theorem toNat_nodeHeader (rc : ResultCode) (ev bo : Bool) (r : NodeRegs) :
    (rc.code ++ bit ev ++ bit bo ++ bit r.recovering ++ 0#3 ++ r.state.code ++ r.cnt :
        BitVec (8 + 1 + 1 + 1 + 3 + 2 + 16)).toNat
      = resultNumber rc * 2 ^ 24 + ev.toNat * 2 ^ 23 + bo.toNat * 2 ^ 22 + r.recovering.toNat * 2 ^ 21
        + stateNumber r.state * 2 ^ 16 + r.cnt.toNat := by
  simp only [toNat_append_eq_add, toNat_resultCode, toNat_bit, toNat_nodeStateCode, BitVec.toNat_ofNat]
  omega

theorem toNat_errorHeader (rc : ResultCode) :
    (rc.code ++ 0#24 : BitVec (8 + 24)).toNat = resultNumber rc * 2 ^ 24 := by
  rw [toNat_append_eq_add, toNat_resultCode, BitVec.toNat_ofNat, Nat.zero_mod, Nat.add_zero]

/-- Settles O9, one kind of response after the other. -/
theorem responseFieldsStandWhereStated : Obligations.ResponseFieldsStandWhereStated := by
  refine ⟨fun sigs hn => ⟨?_, ?_, fun i hi => ?_⟩, fun f hf => ⟨_, _, _, rfl, ?_, fun i hi => ?_⟩,
    fun c => ⟨_, rfl, ?_⟩, fun c => ⟨_, rfl, ?_⟩, fun rc ev bo r => ⟨_, rfl, ?_⟩, fun rc => ⟨_, rfl, ?_⟩⟩
  · rw [Response.words, List.length_cons, length_flatMap_signalWords, Nat.add_comm]
  · exact congrArg some (decodedHeader_eq hn)
  · rw [Response.words, Nat.add_comm, List.drop_succ_cons]
    exact take_drop_flatMap_signalWords sigs i hi
  · exact toNat_frameHeader hf
  · exact getElem?_lanes_payload f.payload hi
  · exact toNat_okHeader 9 c
  · rw [toNat_okHeader]
    cases c <;> rfl
  · exact toNat_nodeHeader rc ev bo r
  · exact toNat_errorHeader rc

end Sys2Proof.Proofs

/-! The command stream: what a step does with the command at its head (R37, R38, R40). -/

namespace Sys2Proof.Proofs

open Machine Safety

/-! ## The encoder's words are the command they encode (R41 to R47) -/

/-- R40, R48: for every instruction, the header asks for the words that follow it. -/
theorem encodeLength (i : Instr) : Laws.EncodeLength.Statement i := by
  cases i with
  | decode f => exact Laws.EncodeLength.decode f
  | encode id ext vs => exact Laws.EncodeLength.encode id ext vs
  | crcCompute p => exact Laws.EncodeLength.crcCompute p
  | crcClassify r c e => exact Laws.EncodeLength.crcClassify r c e
  | onSuccess n => exact Laws.EncodeLength.onSuccess n
  | onFailure n k => exact Laws.EncodeLength.onFailure n k
  | onBusOffTick n k => exact Laws.EncodeLength.onBusOffTick n k

/-- The words of a well-formed instruction, taken as one complete command, are that instruction. -/
theorem decodeComplete_encode {i : Instr} {w0 : Word} {args : List Word} (hi : i.wellFormed = true)
    (he : encode i = w0 :: args) : decodeComplete w0 args = .ok i := by
  cases i with
  | decode f =>
    rw [wellFormed_decode_iff] at hi
    obtain ⟨rfl, rfl⟩ := List.cons.inj he
    have hlen : ¬ Config.payloadMax < f.payload.length := Nat.not_lt.2 hi
    simp only [decodeComplete, opc_headerF, Opcode.ofCode_code, decodeFormatF, reservedHigh_headerF,
      reservedLow_headerF, len_headerF, ext_headerF, lenField_toNat hi, hlen, ne_eq, not_true_eq_false, or_self,
      if_false, arg, List.getD_cons_zero, List.getD_cons_succ, unpackPayload_payload hi]
  | encode id ext vs =>
    rw [wellFormed_encode_iff] at hi
    obtain ⟨rfl, rfl⟩ := List.cons.inj he
    have hlen : (BitVec.ofNat 8 vs.length).toNat = vs.length := by
      rw [BitVec.toNat_ofNat, Nat.mod_eq_of_lt (by omega)]
    have hpairs : decodePairs vs.length (vs.flatMap encodePair) = some vs := by
      simpa using decodePairs_flatMap vs []
    have hargs : ([id].append (vs.flatMap encodePair)).drop 1 = vs.flatMap encodePair := rfl
    simp only [decodeComplete, opc_headerE, Opcode.ofCode_code, decodeFormatE, reserved_headerE, nsig_headerE,
      ext_headerE, hlen, hargs, hpairs, ne_eq, not_true_eq_false, if_false]
    rfl
  | crcCompute p =>
    rw [wellFormed_crcCompute_iff] at hi
    obtain ⟨rfl, rfl⟩ := List.cons.inj he
    have hlen : ¬ Config.payloadMax < p.length := Nat.not_lt.2 hi
    simp [decodeComplete, opc_headerP, decodeFormatP, reserved_headerP, len_headerP, lenField_toNat hi, hlen, arg,
      unpackPayload_payload hi]
  | crcClassify r c e =>
    obtain ⟨hr, hexp⟩ := (wellFormed_crcClassify_iff r c e).1 hi
    obtain ⟨rfl, rfl⟩ := List.cons.inj he
    have hlen : ¬ (Config.payloadMax < e.length ∨ Config.payloadMax < r.length) :=
      not_or.2 ⟨Nat.not_lt.2 hexp, Nat.not_lt.2 hr⟩
    simp only [decodeComplete, opc_headerC, Opcode.ofCode_code, decodeFormatC, reserved_headerC, elen_headerC,
      rlen_headerC, crc_headerC, lenField_toNat hr, lenField_toNat hexp, hlen, Bool.false_eq_true, if_false,
      arg, List.getD_cons_zero, List.getD_cons_succ, unpackPayload_payload hr, unpackPayload_payload hexp]
  | onSuccess n =>
    obtain ⟨rfl, rfl⟩ := List.cons.inj he
    simp [decodeComplete, opc_headerN, decodeOnSuccess, imm_headerN, nodeField_headerN]
  | onFailure n k =>
    obtain ⟨rfl, rfl⟩ := List.cons.inj he
    simp [decodeComplete, opc_headerN, decodeOnFailure, imm_headerN, nodeField_headerN]
  | onBusOffTick n k =>
    obtain ⟨rfl, rfl⟩ := List.cons.inj he
    simp [decodeComplete, opc_headerN, decodeOnBusOffTick, imm_headerN, nodeField_headerN]

/-- R41 to R47: the decoder gives back a well-formed instruction from its words, whatever words follow. -/
theorem decode_encode_append {i : Instr} (hi : i.wellFormed = true) (rest : List Word) :
    decode (encode i ++ rest) = .command i (encode i).length := by
  obtain ⟨w0, args, he, hlen⟩ := encodeLength i hi
  rw [he, decode_cons_append rest hlen, decodeComplete_encode hi he, hlen, List.length_cons]

/-! ## A step, by what stands at the head of the stream -/

theorem step_of_command {s : State} {i : Instr} {k : Nat} (h : decode (leadingWords s.inputs) = .command i k) :
    step s = exec i (s.consume k) := by
  rw [step, h]

theorem step_of_illegal {s : State} {e : Illegal} {k : Nat} (h : decode (leadingWords s.inputs) = .illegal e k) :
    step s = execIllegal (s.consume k) := by
  rw [step, h]

theorem step_of_incomplete {s : State} (h : decode (leadingWords s.inputs) = .incomplete) :
    step s = waitOrReset s := by
  rw [step, h]

/-- Settles O7: taking the words of a command writes the stream alone. -/
theorem stepRunsTheDecodedCommand : Obligations.StepRunsTheDecodedCommand :=
  fun _ _ _ h => step_of_command h

/-- Settles O8: the leading words are the encoder's and others, and the decoder takes the encoder's. -/
theorem sentCommandRuns : Obligations.SentCommandRuns := by
  intro s i rest hi hs
  have hdecode : decode (leadingWords s.inputs) = .command i (encode i).length := by
    rw [hs, leadingWords_map_word_append]
    exact decode_encode_append hi _
  have hdrop : s.inputs.drop (encode i).length = rest := by
    rw [hs, List.drop_left' (List.length_map _)]
  rw [step_of_command hdecode, State.consume, hdrop]

/-! ## Every step of a block answers -/

/-- R49: an illegal command of a block that exists answers ILLEGAL. -/
theorem execIllegal_of_valid {s : State} (h : s.valid = true) : execIllegal s = .next (s.respond (.error .illegal)) :=
  onBlock_of_valid h _

/-- R130, V6: a block that exists waits or takes the reset. -/
theorem waitOrReset_of_valid {s : State} (h : s.valid = true) : ∃ t, waitOrReset s = .next t := by
  rw [waitOrReset, onBlock_of_valid h]
  rcases afterWords_cases s.inputs with e | ⟨rest, e⟩
  · exact ⟨s, by rw [e]⟩
  · exact ⟨{ s.resetNodes with inputs := rest }, by rw [e]⟩

theorem step_of_valid {s : State} (h : s.valid = true) : ∃ t, step s = .next t := by
  cases hd : decode (leadingWords s.inputs) with
  | command i k => exact step_of_command hd ▸ exec_of_valid (s := s.consume k) h i
  | illegal e k => exact step_of_illegal hd ▸ ⟨_, execIllegal_of_valid (s := s.consume k) h⟩
  | incomplete => exact step_of_incomplete hd ▸ waitOrReset_of_valid h

/-- Settles O16: only a block that exists steps, and it always does. -/
theorem stepAnswersExactlyWhenTheBlockExists : Obligations.StepAnswersExactlyWhenTheBlockExists := by
  intro s
  constructor
  · rintro ⟨t, ht⟩
    obtain ⟨hv, -, -⟩ := step_moves ht
    exact hv
  · exact step_of_valid

/-! ## One response for each command -/

/-- R51: a response has a header. -/
theorem words_ne_nil (r : Response) : r.words ≠ [] := by
  cases r <;> exact List.cons_ne_nil _ _

/-- R40: a command that answers appends one response and leaves the stream. -/
theorem exec_responds {i : Instr} {s t : State} (h : exec i s = .next t) :
    ∃ r : Response, t.responses = s.responses ++ [r.words] ∧ t.inputs = s.inputs := by
  obtain ⟨-, hnode | hstateless⟩ := exec_next h
  · cases hnode <;> exact ⟨_, rfl, rfl⟩
  · cases hstateless <;> exact ⟨_, rfl, rfl⟩

/-- Settles O19: a legal command responds once, an illegal one with ILLEGAL, on the stream without its words. -/
theorem everyCommandGetsOneResponse : Obligations.EveryCommandGetsOneResponse := by
  rintro s hs k (⟨i, hd⟩ | ⟨e, hd⟩)
  · obtain ⟨t, ht⟩ := exec_of_valid (s := s.consume k) hs i
    obtain ⟨r, hresponses, hinputs⟩ := exec_responds ht
    exact ⟨t, r.words, (step_of_command hd).trans ht, hresponses, words_ne_nil r, hinputs⟩
  · exact ⟨_, _, (step_of_illegal hd).trans (execIllegal_of_valid (s := s.consume k) hs), rfl,
      words_ne_nil (.error .illegal), rfl⟩

end Sys2Proof.Proofs

/-! The payload as an integer, its fields, and the table that is looked up (R26 to R33). -/

namespace Sys2Proof.Proofs

open Machine

/-! ## Where a payload bit lives (R28) -/

theorem byteIndex_lt {o : ByteOrder} {len k : Nat} (h : k < 8 * len) : byteIndex o len k < len := by
  cases o <;> simp only [byteIndex] <;> omega

/-- R28: bit `k` of the payload integer is bit `k mod 8` of the byte `ByteIndex` names. -/
theorem testBit_payloadInt_eq_getLsbD (o : ByteOrder) {p : List Byte} {k : Nat} (h : k < 8 * p.length) :
    (payloadInt o p).testBit k = (p[byteIndex o p.length k]'(byteIndex_lt h)).getLsbD (k % 8) := by
  have hdiv : physBit o p.length k / 8 = byteIndex o p.length k := by
    rw [physBit]
    omega
  have hmod : physBit o p.length k % 8 = k % 8 := by
    rw [physBit]
    omega
  rw [testBit_payloadInt o p k h, payloadBit, hdiv, hmod, List.getD_eq_getElem _ _ (byteIndex_lt h)]

/-- Settles O36: both clauses are R28 at one byte order. -/
theorem payloadBitLivesWhereStated : Obligations.PayloadBitLivesWhereStated := fun _ _ h =>
  ⟨rfl, rfl, ⟨byteIndex_lt (o := .littleEndian) h, testBit_payloadInt_eq_getLsbD .littleEndian h⟩,
    ⟨byteIndex_lt (o := .bigEndian) h, testBit_payloadInt_eq_getLsbD .bigEndian h⟩⟩

/-! ## The bytes of the payload integer (R27) -/

/-- The bytes of the payload integer of a payload are the payload. -/
theorem payloadBytes_payloadInt (o : ByteOrder) (p : List Byte) : payloadBytes o (payloadInt o p) p.length = p := by
  cases o with
  | littleEndian => exact leBytes_leInt p
  | bigEndian => rw [payloadInt, payloadBytes, ← List.length_reverse, leBytes_leInt, List.reverse_reverse]

/-- Settles O37: the bound, and the inverse on both sides. -/
theorem payloadBytesInvertsPayloadInt : Obligations.PayloadBytesInvertsPayloadInt := fun o =>
  ⟨fun p => ⟨payloadInt_lt o p, payloadBytes_payloadInt o p⟩, fun _ _ hv => payloadInt_payloadBytes o hv⟩

/-! ## Writing one field (R30) -/

section
variable (o : ByteOrder) (p : List Byte) (s n v : Nat)

theorem length_insertField : (insertField o p s n v).length = p.length := length_payloadBytes o _ p.length

variable {p s n v} (h : s + n ≤ 8 * p.length) (hv : v < 2 ^ n)
include h hv

theorem testBit_insertField_outside {k : Nat} (hk : k < s ∨ s + n ≤ k) :
    (payloadInt o (insertField o p s n v)).testBit k = (payloadInt o p).testBit k := by
  rw [testBit_insertField o p s n v h hv, if_neg (by omega)]

/-- A field written reads back. -/
theorem extractField_insertField_self : extractField o (insertField o p s n v) s n = v := by
  apply Nat.eq_of_testBit_eq
  intro j
  rw [testBit_extractField]
  by_cases hj : j < n
  · simp [testBit_insertField o p s n v h hv, hj]
  · have hvj : v.testBit j = false :=
      Nat.testBit_lt_two_pow (hv.trans_le (Nat.pow_le_pow_right (by decide) (Nat.not_lt.1 hj)))
    simp [hj, hvj]

/-- A field with no bit of the written one reads as before. -/
theorem extractField_insertField_disjoint {s2 n2 : Nat} (hd : s2 + n2 ≤ s ∨ s + n ≤ s2) :
    extractField o (insertField o p s n v) s2 n2 = extractField o p s2 n2 := by
  apply Nat.eq_of_testBit_eq
  intro j
  rw [testBit_extractField, testBit_extractField]
  by_cases hj : j < n2
  · rw [testBit_insertField_outside o h hv (by omega)]
  · simp [hj]

end

/-- Settles O38: each part is a fact about the bits that `Insert` writes. -/
theorem insertReplacesExactlyItsField : Obligations.InsertReplacesExactlyItsField :=
  fun o p s n v _ _ h hv =>
    ⟨length_insertField o p s n v, extractField_insertField_self o h hv,
      fun _ hk => testBit_insertField_outside o h hv hk,
      fun _ _ hd => extractField_insertField_disjoint o h hv hd⟩

/-! ## Lookup (R33) -/

theorem lookup_eq_none_iff (d : DescTable) (id : Word) : lookup d id = none ↔ ∀ e, (id, e) ∉ d := by
  rw [lookup, Option.map_eq_none_iff, List.find?_eq_none]
  constructor
  · exact fun h e he => h _ he (decide_eq_true rfl)
  · rintro h ⟨k, e⟩ he hk
    exact h e (of_decide_eq_true hk ▸ he)

/-- R13: a table holds one entry under a key. -/
theorem entry_unique {d : DescTable} (h : isMap d = true) {id : Word} {e e' : Entry} (he : (id, e) ∈ d)
    (he' : (id, e') ∈ d) : e = e' :=
  congrArg Prod.snd (List.inj_on_of_nodup_map (of_decide_eq_true h) he he' rfl)

/-- What a table holds under an id is found. -/
theorem lookup_of_mem {d : DescTable} (h : isMap d = true) {id : Word} {e : Entry} (he : (id, e) ∈ d) :
    lookup d id = some e := by
  cases hl : lookup d id with
  | none => exact absurd he ((lookup_eq_none_iff d id).1 hl e)
  | some e' => rw [entry_unique h he (mem_of_lookup hl)]

/-- Settles O41: what is found stands in the table, and the table holds one entry under each key. -/
theorem lookupFindsTheEntryOfTheId : Obligations.LookupFindsTheEntryOfTheId := fun d id h =>
  ⟨fun _ => ⟨mem_of_lookup, lookup_of_mem h⟩, lookup_eq_none_iff d id⟩

end Sys2Proof.Proofs

/-! The commands and their words: what the decoder accepts, what it refuses, and what it waits for (R40 to R49). -/

namespace Sys2Proof.Proofs

open Machine Safety

/-- Settles O1: the decoder reads the encoder's words, whatever words follow. -/
theorem decodeOfEncodeGivesTheInstruction : Obligations.DecodeOfEncodeGivesTheInstruction := fun _ rest hi =>
  decode_encode_append hi rest

/-- Settles O4: the decoder runs on seven fixed word sequences. -/
theorem workedWordsDecode : Obligations.WorkedWordsDecode := by
  unfold Obligations.WorkedWordsDecode
  decide

/-! ## Fields read off the bits -/

theorem toNat_extractLsb' (w : Word) (lo n : Nat) : (w.extractLsb' lo n).toNat = field w lo n := by
  rw [BitVec.extractLsb'_toNat, Nat.shiftRight_eq_div_pow, field]

theorem extractLsb'_eq_zero_iff (w : Word) (lo n : Nat) : w.extractLsb' lo n = 0#n ↔ field w lo n = 0 := by
  rw [← BitVec.toNat_inj, toNat_extractLsb', BitVec.toNat_zero]

theorem getLsbD_eq_false_iff (w : Word) (k : Nat) : w.getLsbD k = false ↔ field w k 1 = 0 := by
  rw [field, pow_one, ← Nat.toNat_testBit, Bool.toNat_eq_zero, BitVec.getLsbD]

theorem toNat_bit_getLsbD (w : Word) (k : Nat) : (bit (w.getLsbD k)).toNat = field w k 1 := by
  rw [toNat_bit, BitVec.getLsbD, Nat.toNat_testBit, field, pow_one]

theorem opc_eq_iff (w0 : Word) (b : Byte) : opc w0 = b ↔ field w0 24 8 = b.toNat := by
  rw [← BitVec.toNat_inj, opc, toNat_extractLsb']

theorem nsig_eq_field (w0 : Word) : nsig w0 = field w0 0 8 := toNat_extractLsb' w0 0 8

theorem nodeField_eq_ok_iff (w0 : Word) (n : NodeIx) : nodeField w0 = .ok n ↔ field w0 16 8 = n.val := by
  rw [nodeField, ← toNat_extractLsb']
  split
  · rw [Except.ok.injEq, Fin.ext_iff]
  · next h => exact iff_of_false nofun fun hn => h (hn ▸ n.isLt)

theorem field_eq_code {w0 : Word} {op : Opcode} (hop : Opcode.ofCode (opc w0) = some op) :
    field w0 24 8 = op.code.toNat :=
  (opc_eq_iff w0 _).1 (Opcode.code_of_ofCode hop)

theorem field_ne_code_of_reserved {w0 : Word} (hop : Opcode.ofCode (opc w0) = none) (op : Opcode) :
    field w0 24 8 ≠ op.code.toNat := by
  intro h
  rw [(opc_eq_iff w0 _).2 h, Opcode.ofCode_code] at hop
  cases hop

/-- R48: the decoder's number of words is the formats'. -/
theorem commandLength_eq_wordsOf (w0 : Word) : commandLength w0 = wordsOf w0 := by
  cases hop : Opcode.ofCode (opc w0) with
  | some op =>
    have hcode := field_eq_code hop
    cases op <;> simp [commandLength, wordsOf, hop, hcode, Opcode.code, nsig_eq_field]
  | none =>
    have hcode := field_ne_code_of_reserved hop
    simp only [commandLength, hop, wordsOf]
    split
    · next h => exact absurd h (hcode .decode)
    · next h => exact absurd h (hcode .encode)
    · next h => exact absurd h (hcode .crcCompute)
    · next h => exact absurd h (hcode .crcClassify)
    · rfl

/-- R47: an ENCODE has three words for each pair after its id. -/
theorem length_args_of_encode {w0 : Word} {args : List Word} (hlen : args.length + 1 = commandLength w0)
    (hop : Opcode.ofCode (opc w0) = some .encode) : args.length = 3 * field w0 0 8 + 1 := by
  simp only [commandLength, hop, nsig_eq_field] at hlen
  omega

/-! ## Which words are accepted as which instruction -/

/-- R42 to R49: header `w0` and the words `args` after it are accepted as an instruction, with each field that is
checked, and each operand, where its format has it. -/
inductive Accepted (w0 : Word) (args : List Word) : Instr → Prop where
  | decode (hop : opc w0 = Opcode.decode.code) (hhigh : field w0 9 15 = 0) (hlow : field w0 4 4 = 0)
      (hlen : field w0 0 4 ≤ 8) :
      Accepted w0 args (.decode ⟨arg args 0, w0.getLsbD 8, unpackPayload (field w0 0 4) (arg args 1) (arg args 2)⟩)
  | encode (vs : List (Byte × F64)) (hop : opc w0 = Opcode.encode.code) (hhigh : field w0 9 15 = 0)
      (hpairs : decodePairs (field w0 0 8) (args.drop 1) = some vs) :
      Accepted w0 args (.encode (arg args 0) (w0.getLsbD 8) vs)
  | crcCompute (hop : opc w0 = Opcode.crcCompute.code) (hhigh : field w0 4 20 = 0) (hlen : field w0 0 4 ≤ 8) :
      Accepted w0 args (.crcCompute (unpackPayload (field w0 0 4) (arg args 0) (arg args 1)))
  | crcClassify (hop : opc w0 = Opcode.crcClassify.code) (hbit : field w0 15 1 = 0) (helen : field w0 20 4 ≤ 8)
      (hrlen : field w0 16 4 ≤ 8) :
      Accepted w0 args (.crcClassify (unpackPayload (field w0 16 4) (arg args 0) (arg args 1)) (w0.extractLsb' 0 15)
        (unpackPayload (field w0 20 4) (arg args 2) (arg args 3)))
  | onSuccess (n : NodeIx) (hop : opc w0 = Opcode.onSuccess.code) (hnode : field w0 16 8 = n.val)
      (himm : field w0 0 16 = 0) : Accepted w0 args (.onSuccess n)
  | onFailure (n : NodeIx) (hop : opc w0 = Opcode.onFailure.code) (hnode : field w0 16 8 = n.val) :
      Accepted w0 args (.onFailure n (imm w0))
  | onBusOffTick (n : NodeIx) (hop : opc w0 = Opcode.onBusOffTick.code) (hnode : field w0 16 8 = n.val) :
      Accepted w0 args (.onBusOffTick n (imm w0))

section
variable {w0 : Word} {args : List Word} {i : Instr}

/-- A check that is passed before anything is decoded. -/
theorem ite_error_eq_ok_iff {c : Prop} [Decidable c] {e : Illegal} {x : Except Illegal Instr} :
    (if c then .error e else x) = .ok i ↔ ¬ c ∧ x = .ok i := by
  split
  · next h => exact iff_of_false nofun fun hx => hx.1 h
  · next h => exact (and_iff_right h).symm

theorem decodeFormatF_eq_ok_iff {w1 lo hi : Word} : decodeFormatF w0 w1 lo hi = .ok i ↔
    (field w0 9 15 = 0 ∧ field w0 4 4 = 0) ∧ field w0 0 4 ≤ 8 ∧
      .decode ⟨w1, w0.getLsbD 8, unpackPayload (field w0 0 4) lo hi⟩ = i := by
  simp only [decodeFormatF, ite_error_eq_ok_iff, toNat_extractLsb', ne_eq, extractLsb'_eq_zero_iff, not_or, not_not,
    Nat.not_lt, Except.ok.injEq, Config.payloadMax]

theorem decodeFormatE_eq_ok_iff {w1 : Word} {ws : List Word} : decodeFormatE w0 w1 ws = .ok i ↔
    field w0 9 15 = 0 ∧ ∃ vs, decodePairs (field w0 0 8) ws = some vs ∧ .encode w1 (w0.getLsbD 8) vs = i := by
  simp only [decodeFormatE, ite_error_eq_ok_iff, nsig_eq_field, ne_eq, extractLsb'_eq_zero_iff, not_not]
  cases decodePairs (field w0 0 8) ws <;> simp

theorem decodeFormatP_eq_ok_iff {lo hi : Word} : decodeFormatP w0 lo hi = .ok i ↔
    field w0 4 20 = 0 ∧ field w0 0 4 ≤ 8 ∧ .crcCompute (unpackPayload (field w0 0 4) lo hi) = i := by
  simp only [decodeFormatP, ite_error_eq_ok_iff, toNat_extractLsb', ne_eq, extractLsb'_eq_zero_iff, not_not,
    Nat.not_lt, Except.ok.injEq, Config.payloadMax]

theorem decodeFormatC_eq_ok_iff {lo hi elo ehi : Word} : decodeFormatC w0 lo hi elo ehi = .ok i ↔
    field w0 15 1 = 0 ∧ (field w0 20 4 ≤ 8 ∧ field w0 16 4 ≤ 8) ∧
      .crcClassify (unpackPayload (field w0 16 4) lo hi) (w0.extractLsb' 0 15)
        (unpackPayload (field w0 20 4) elo ehi) = i := by
  simp only [decodeFormatC, ite_error_eq_ok_iff, toNat_extractLsb', Bool.not_eq_true, getLsbD_eq_false_iff, not_or,
    Nat.not_lt, Except.ok.injEq, Config.payloadMax]

theorem decodeOnSuccess_eq_ok_iff : decodeOnSuccess w0 = .ok i ↔
    field w0 0 16 = 0 ∧ ∃ n : NodeIx, field w0 16 8 = n.val ∧ .onSuccess n = i := by
  simp only [decodeOnSuccess, ite_error_eq_ok_iff, imm, ne_eq, extractLsb'_eq_zero_iff, not_not,
    ← nodeField_eq_ok_iff]
  cases nodeField w0 <;> simp

theorem decodeOnFailure_eq_ok_iff : decodeOnFailure w0 = .ok i ↔
    ∃ n : NodeIx, field w0 16 8 = n.val ∧ .onFailure n (imm w0) = i := by
  simp only [decodeOnFailure, ← nodeField_eq_ok_iff]
  cases nodeField w0 <;> simp

theorem decodeOnBusOffTick_eq_ok_iff : decodeOnBusOffTick w0 = .ok i ↔
    ∃ n : NodeIx, field w0 16 8 = n.val ∧ .onBusOffTick n (imm w0) = i := by
  simp only [decodeOnBusOffTick, ← nodeField_eq_ok_iff]
  cases nodeField w0 <;> simp

/-- What the decoder reads from a complete command is accepted. -/
theorem accepted_of_decodeComplete (h : decodeComplete w0 args = .ok i) : Accepted w0 args i := by
  cases hop : Opcode.ofCode (opc w0) with
  | none => simp [decodeComplete, hop] at h
  | some op =>
    have hcode := Opcode.code_of_ofCode hop
    simp only [decodeComplete, hop] at h
    cases op with
    | decode =>
      obtain ⟨⟨hhigh, hlow⟩, hlen, rfl⟩ := decodeFormatF_eq_ok_iff.1 h
      exact .decode hcode hhigh hlow hlen
    | encode =>
      obtain ⟨hhigh, vs, hpairs, rfl⟩ := decodeFormatE_eq_ok_iff.1 h
      exact .encode vs hcode hhigh hpairs
    | crcCompute =>
      obtain ⟨hhigh, hlen, rfl⟩ := decodeFormatP_eq_ok_iff.1 h
      exact .crcCompute hcode hhigh hlen
    | crcClassify =>
      obtain ⟨hbit, ⟨helen, hrlen⟩, rfl⟩ := decodeFormatC_eq_ok_iff.1 h
      exact .crcClassify hcode hbit helen hrlen
    | onSuccess =>
      obtain ⟨himm, n, hnode, rfl⟩ := decodeOnSuccess_eq_ok_iff.1 h
      exact .onSuccess n hcode hnode himm
    | onFailure =>
      obtain ⟨n, hnode, rfl⟩ := decodeOnFailure_eq_ok_iff.1 h
      exact .onFailure n hcode hnode
    | onBusOffTick =>
      obtain ⟨n, hnode, rfl⟩ := decodeOnBusOffTick_eq_ok_iff.1 h
      exact .onBusOffTick n hcode hnode

end

/-! ## The pairs of format E (R47) -/

/-- Pairs that are read stand in the encoder's words. -/
theorem flatMap_encodePair_of_decodePairs {n : Nat} {ws : List Word} {vs : List (Byte × F64)}
    (hlen : ws.length = 3 * n) (h : decodePairs n ws = some vs) : vs.length = n ∧ vs.flatMap encodePair = ws := by
  induction n generalizing ws vs with
  | zero =>
    obtain rfl := List.eq_nil_of_length_eq_zero hlen
    cases h
    exact ⟨rfl, rfl⟩
  | succ n ih =>
    match ws with
    | [] | [_] | [_, _] => simp only [List.length_cons, List.length_nil] at hlen; omega
    | k :: lo :: hi :: rest =>
      rw [decodePairs] at h
      split_ifs at h with hk
      obtain ⟨ps, hps, rfl⟩ := Option.map_eq_some_iff.1 h
      have hrest : rest.length = 3 * n := by
        simp only [List.length_cons] at hlen
        omega
      obtain ⟨rfl, rfl⟩ := ih hrest hps
      have hkey : (0#24 ++ k.extractLsb' 0 8 : BitVec (24 + 8)) = k := by
        rw [← hk]
        exact BitVec.extractLsb'_append_extractLsb' (w := 24) (len := 8) (x := k)
      have hlo : loWord (hi ++ lo) = lo := BitVec.extractLsb'_append_eq_right
      have hhi : hiWord (hi ++ lo) = hi := BitVec.extractLsb'_append_eq_left
      exact ⟨rfl, by rw [List.flatMap_cons, encodePair, hkey, hlo, hhi]; rfl⟩

/-- Pairs can be read where bits 31:8 of every `SIDX` word are 0. -/
theorem exists_decodePairs_iff {n : Nat} {ws : List Word} (hlen : 3 * n ≤ ws.length) :
    (∃ vs, decodePairs n ws = some vs) ↔ ∀ j < n, field (ws.getD (3 * j) 0#32) 8 24 = 0 := by
  induction n generalizing ws with
  | zero => exact iff_of_true ⟨[], rfl⟩ nofun
  | succ n ih =>
    match ws with
    | [] | [_] | [_, _] => simp only [List.length_cons, List.length_nil] at hlen; omega
    | k :: lo :: hi :: rest =>
      have hrest : 3 * n ≤ rest.length := by
        simp only [List.length_cons] at hlen
        omega
      simp only [Nat.forall_lt_succ_left, Nat.mul_zero, List.getD_cons_zero, Nat.mul_succ, List.getD_cons_succ,
        ← ih hrest, ← extractLsb'_eq_zero_iff k, decodePairs]
      split
      · next hk => simp [hk]
      · next hk => simp [hk]

/-! ## The header and the words of an accepted command -/

section
variable {w0 : Word} {args : List Word} {i : Instr}

theorem headerF_eq {l : BitVec 4} (hhigh : field w0 9 15 = 0) (hlow : field w0 4 4 = 0) (hl : l.toNat = field w0 0 4) :
    (opc w0 ++ 0#15 ++ bit (w0.getLsbD 8) ++ 0#4 ++ l : BitVec (8 + 15 + 1 + 4 + 4)) = w0 := by
  apply BitVec.eq_of_toNat_eq
  simp only [toNat_append_eq_add, opc, toNat_extractLsb', toNat_bit_getLsbD, BitVec.toNat_zero, hl]
  simp only [field] at *
  omega

theorem headerE_eq {l : BitVec 8} (hhigh : field w0 9 15 = 0) (hl : l.toNat = field w0 0 8) :
    (opc w0 ++ 0#15 ++ bit (w0.getLsbD 8) ++ l : BitVec (8 + 15 + 1 + 8)) = w0 := by
  apply BitVec.eq_of_toNat_eq
  simp only [toNat_append_eq_add, opc, toNat_extractLsb', toNat_bit_getLsbD, BitVec.toNat_zero, hl]
  simp only [field] at *
  omega

theorem headerP_eq {l : BitVec 4} (hhigh : field w0 4 20 = 0) (hl : l.toNat = field w0 0 4) :
    (opc w0 ++ 0#20 ++ l : BitVec (8 + 20 + 4)) = w0 := by
  apply BitVec.eq_of_toNat_eq
  simp only [toNat_append_eq_add, opc, toNat_extractLsb', BitVec.toNat_zero, hl]
  simp only [field] at *
  omega

theorem headerC_eq {l l' : BitVec 4} (hbit : field w0 15 1 = 0) (hl : l.toNat = field w0 20 4)
    (hl' : l'.toNat = field w0 16 4) :
    (opc w0 ++ l ++ l' ++ 0#1 ++ w0.extractLsb' 0 15 : BitVec (8 + 4 + 4 + 1 + 15)) = w0 := by
  apply BitVec.eq_of_toNat_eq
  simp only [toNat_append_eq_add, opc, toNat_extractLsb', BitVec.toNat_zero, hl, hl']
  simp only [field] at *
  omega

theorem headerN_eq {n : NodeIx} (hnode : field w0 16 8 = n.val) :
    (opc w0 ++ BitVec.ofNat 8 n.val ++ imm w0 : BitVec (8 + 8 + 16)) = w0 := by
  have hn : (BitVec.ofNat 8 n.val).toNat = field w0 16 8 := by
    rw [BitVec.toNat_ofNat, hnode, Nat.mod_eq_of_lt (Nat.lt_trans n.isLt (by decide))]
  apply BitVec.eq_of_toNat_eq
  simp only [toNat_append_eq_add, opc, imm, toNat_extractLsb', hn]
  simp only [field] at *
  omega

theorem length_unpackPayload_le {n : Nat} (h : n ≤ 8) (lo hi : Word) : (unpackPayload n lo hi).length ≤ 8 :=
  (length_unpackPayload h lo hi).trans_le h

theorem lenField_unpackPayload {n : Nat} (h : n ≤ 8) (lo hi : Word) : (lenField (unpackPayload n lo hi)).toNat = n := by
  rw [lenField_toNat (length_unpackPayload_le h lo hi), length_unpackPayload h]

/-- R43 (a): an unpacked payload is carried by its two words. -/
theorem carryPayload_unpackPayload {n : Nat} (h : n ≤ 8) (lo hi : Word) :
    CarryPayload (some lo) (some hi) (unpackPayload n lo hi) := by
  refine ⟨lo, hi, rfl, rfl, fun j hj => ?_⟩
  rw [getElem_unpackPayload lo hi h, apply_ite BitVec.toNat, toNat_extractLsb', toNat_extractLsb']

theorem field_lt (w : Word) (lo n : Nat) : field w lo n < 2 ^ n := Nat.mod_lt _ (Nat.two_pow_pos n)

/-- An accepted ENCODE has the encoder's words (R47). -/
theorem encode_eq_of_decodePairs {vs : List (Byte × F64)} (hop : opc w0 = Opcode.encode.code)
    (hlen : args.length + 1 = commandLength w0) (hhigh : field w0 9 15 = 0)
    (hpairs : decodePairs (field w0 0 8) (args.drop 1) = some vs) :
    vs.length ≤ 255 ∧ encode (.encode (arg args 0) (w0.getLsbD 8) vs) = w0 :: args := by
  have hwords := length_args_of_encode hlen (by rw [hop, Opcode.ofCode_code])
  have hn : field w0 0 8 < 2 ^ 8 := field_lt w0 0 8
  obtain ⟨id, pairs, rfl⟩ := List.exists_cons_of_length_eq_add_one hwords
  obtain ⟨hvs, rfl⟩ := flatMap_encodePair_of_decodePairs (Nat.succ.inj hwords) hpairs
  have hl : (BitVec.ofNat 8 vs.length).toNat = field w0 0 8 := by rw [BitVec.toNat_ofNat, hvs, Nat.mod_eq_of_lt hn]
  refine ⟨by omega, ?_⟩
  rw [encode, ← hop, headerE_eq hhigh hl]
  rfl

/-- An accepted node command has the encoder's one word (R42). -/
theorem encodeFormatN_eq {op : Opcode} {n : NodeIx} {k : BitVec 16} (hop : opc w0 = op.code)
    (hlen : args.length + 1 = 1) (hnode : field w0 16 8 = n.val) (hk : imm w0 = k) :
    encodeFormatN op n k = w0 :: args := by
  obtain rfl := List.eq_nil_of_length_eq_zero (Nat.succ.inj hlen)
  rw [encodeFormatN, ← hop, ← hk, headerN_eq hnode]

/-- R42, R47: of an accepted ENCODE or node command, every word is the encoder's. -/
theorem encode_eq_of_accepted (h : Accepted w0 args i) (hlen : args.length + 1 = commandLength w0)
    (hi : (∃ id ext vs, i = .encode id ext vs) ∨ ∃ n, NodeCommand n i) : encode i = w0 :: args := by
  cases h with
  | encode vs hop hhigh hpairs => exact (encode_eq_of_decodePairs hop hlen hhigh hpairs).2
  | onSuccess n hop hnode himm =>
    rw [commandLength, hop, Opcode.ofCode_code] at hlen
    exact encodeFormatN_eq hop hlen hnode ((extractLsb'_eq_zero_iff w0 0 16).2 himm)
  | onFailure n hop hnode =>
    rw [commandLength, hop, Opcode.ofCode_code] at hlen
    exact encodeFormatN_eq hop hlen hnode rfl
  | onBusOffTick n hop hnode =>
    rw [commandLength, hop, Opcode.ofCode_code] at hlen
    exact encodeFormatN_eq hop hlen hnode rfl
  | decode | crcCompute | crcClassify => obtain ⟨_, _, _, h⟩ | ⟨_, h⟩ := hi <;> cases h

/-- R42 to R47: an accepted command is well formed, and its header is the encoder's. -/
theorem wellFormed_and_header_of_accepted (h : Accepted w0 args i) (hlen : args.length + 1 = commandLength w0) :
    i.wellFormed = true ∧ (encode i).head? = some w0 := by
  cases h with
  | decode hop hhigh hlow hle =>
    refine ⟨(wellFormed_decode_iff _).2 (length_unpackPayload_le hle _ _), congrArg some ?_⟩
    exact hop ▸ headerF_eq hhigh hlow (lenField_unpackPayload hle _ _)
  | encode vs hop hhigh hpairs =>
    obtain ⟨hvs, hwords⟩ := encode_eq_of_decodePairs hop hlen hhigh hpairs
    exact ⟨(wellFormed_encode_iff _ _ _).2 hvs, congrArg List.head? hwords⟩
  | crcCompute hop hhigh hle =>
    refine ⟨(wellFormed_crcCompute_iff _).2 (length_unpackPayload_le hle _ _), congrArg some ?_⟩
    exact hop ▸ headerP_eq hhigh (lenField_unpackPayload hle _ _)
  | crcClassify hop hbit helen hrlen =>
    refine ⟨(wellFormed_crcClassify_iff _ _ _).2 ⟨length_unpackPayload_le hrlen _ _, length_unpackPayload_le helen _ _⟩,
      congrArg some ?_⟩
    exact hop ▸ headerC_eq hbit (lenField_unpackPayload helen _ _) (lenField_unpackPayload hrlen _ _)
  | onSuccess n hop hnode himm =>
    exact ⟨rfl, congrArg List.head? (encode_eq_of_accepted (.onSuccess n hop hnode himm) hlen (.inr ⟨n, .success⟩))⟩
  | onFailure n hop hnode =>
    exact ⟨rfl, congrArg List.head? (encode_eq_of_accepted (.onFailure n hop hnode) hlen (.inr ⟨n, .failure _⟩))⟩
  | onBusOffTick n hop hnode =>
    exact ⟨rfl, congrArg List.head? (encode_eq_of_accepted (.onBusOffTick n hop hnode) hlen (.inr ⟨n, .tick _⟩))⟩

/-- Word `j + 1` of a command is its argument `j`, whatever words follow. -/
theorem getElem?_command {j : Nat} (hj : j < args.length) (rest : List Word) :
    (w0 :: (args ++ rest))[j + 1]? = some (arg args j) := by
  rw [List.getElem?_cons_succ, List.getElem?_append_left hj, List.getElem?_eq_getElem hj, arg,
    List.getD_eq_getElem _ _ hj]

end

/-- R40: a command that is read is an accepted one of as many words as its header asks for. -/
theorem accepted_of_decode {ws : List Word} {i : Instr} {k : Nat} (h : decode ws = .command i k) :
    ∃ w0 args rest, ws = w0 :: (args ++ rest) ∧ args.length + 1 = commandLength w0 ∧ k = commandLength w0 ∧
      Accepted w0 args i := by
  obtain ⟨hd, -⟩ | ⟨w0, args, rest, hws, hlen, ⟨i', hi, hd⟩ | ⟨e, -, hd⟩⟩ := decode_cases ws
  · cases hd.symm.trans h
  · cases hd.symm.trans h
    exact ⟨w0, args, rest, hws, hlen, rfl, accepted_of_decodeComplete hi⟩
  · cases hd.symm.trans h

/-- Settles O2: the fields the decoder has checked and read make up the words, but for the unused lanes. -/
theorem acceptedWordsAreTheEncodersButForUnusedLanes : Obligations.AcceptedWordsAreTheEncodersButForUnusedLanes := by
  intro ws i k h
  obtain ⟨w0, args, rest, rfl, hlen, rfl, hacc⟩ := accepted_of_decode h
  obtain ⟨hwf, hhead⟩ := wellFormed_and_header_of_accepted hacc hlen
  refine ⟨hwf, ?_, ?_, hhead, fun hi => ?_, ?_, ?_, ?_⟩
  · simp only [List.length_cons, List.length_append]
    omega
  · obtain ⟨w, args', he, hcount⟩ := encodeLength i hwf
    rw [he] at hhead ⊢
    cases hhead
    exact hcount.symm
  · rw [encode_eq_of_accepted hacc hlen hi, ← hlen, List.take_succ_cons, List.take_left' rfl]
  · rintro f rfl
    cases hacc with
    | decode hop hhigh hlow hle =>
      simp only [commandLength, hop, Opcode.ofCode_code] at hlen
      rw [getElem?_command (by omega), getElem?_command (by omega), getElem?_command (by omega)]
      exact ⟨rfl, carryPayload_unpackPayload hle _ _⟩
  · rintro p rfl
    cases hacc with
    | crcCompute hop hhigh hle =>
      simp only [commandLength, hop, Opcode.ofCode_code] at hlen
      rw [getElem?_command (by omega), getElem?_command (by omega)]
      exact carryPayload_unpackPayload hle _ _
  · rintro r c e rfl
    cases hacc with
    | crcClassify hop hbit helen hrlen =>
      simp only [commandLength, hop, Opcode.ofCode_code] at hlen
      rw [getElem?_command (by omega), getElem?_command (by omega), getElem?_command (by omega),
        getElem?_command (by omega)]
      exact ⟨carryPayload_unpackPayload hrlen _ _, carryPayload_unpackPayload helen _ _⟩

/-! ## Unused byte lanes (R43) -/

/-- Words that agree on the byte lanes below the length carry one payload. -/
theorem unpackPayload_congr {n : Nat} {lo hi lo' hi' : Word}
    (h : ∀ i < n, (lanes lo ++ lanes hi)[i]? = (lanes lo' ++ lanes hi')[i]?) :
    unpackPayload n lo hi = unpackPayload n lo' hi' := by
  apply List.ext_getElem?
  intro i
  rw [unpackPayload, unpackPayload, List.getElem?_take, List.getElem?_take]
  split
  · next hi => exact h i hi
  · rfl

/-- A complete command is read from what its header and arguments decode to. -/
theorem decode_congr {w0 : Word} {args args' : List Word} (hlen : commandLength w0 = args.length + 1)
    (hlen' : commandLength w0 = args'.length + 1) (h : decodeComplete w0 args = decodeComplete w0 args') :
    decode (w0 :: args) = decode (w0 :: args') := by
  have hargs := decode_cons_append [] hlen
  have hargs' := decode_cons_append [] hlen'
  rw [List.append_nil] at hargs hargs'
  rw [hargs, hargs', h]

/-- Settles O3: the formats read the words of a payload by unpacking them alone. -/
theorem unusedByteLanesAreIgnored : Obligations.UnusedByteLanesAreIgnored := by
  intro w0 w1 lo hi lo' hi' elo ehi elo' ehi'
  refine ⟨fun hop h => ?_, fun hop h => ?_, fun hop h he => ?_⟩
  · have hcode : Opcode.ofCode (opc w0) = some .decode := by rw [hop]; rfl
    have hlen : commandLength w0 = 4 := by rw [commandLength, hcode]
    refine decode_congr hlen hlen ?_
    simp only [decodeComplete, hcode, decodeFormatF, toNat_extractLsb', arg, List.getD_cons_zero, List.getD_cons_succ,
      unpackPayload_congr h]
  · have hcode : Opcode.ofCode (opc w0) = some .crcCompute := by rw [hop]; rfl
    have hlen : commandLength w0 = 3 := by rw [commandLength, hcode]
    refine decode_congr hlen hlen ?_
    simp only [decodeComplete, hcode, decodeFormatP, toNat_extractLsb', arg, List.getD_cons_zero, List.getD_cons_succ,
      unpackPayload_congr h]
  · have hcode : Opcode.ofCode (opc w0) = some .crcClassify := by rw [hop]; rfl
    have hlen : commandLength w0 = 5 := by rw [commandLength, hcode]
    refine decode_congr hlen hlen ?_
    simp only [decodeComplete, hcode, decodeFormatC, toNat_extractLsb', arg, List.getD_cons_zero, List.getD_cons_succ,
      unpackPayload_congr h, unpackPayload_congr he]

/-! ## Malformed commands (R49) -/

section
variable {w0 : Word} {args : List Word}

/-- The pairs of an ENCODE can be read where none of its `SIDX` words has a reserved bit, whatever words follow. -/
theorem exists_pairs_iff (rest : List Word) (hwords : args.length = 3 * field w0 0 8 + 1) :
    (∃ vs, decodePairs (field w0 0 8) (args.drop 1) = some vs) ↔
      ¬ ∃ j < field w0 0 8, field ((args ++ rest).getD (1 + 3 * j) 0#32) 8 24 ≠ 0 := by
  obtain ⟨id, pairs, rfl⟩ := List.exists_cons_of_length_eq_add_one hwords
  have hpairs : pairs.length = 3 * field w0 0 8 := Nat.succ.inj hwords
  have hgetD (j : Nat) (hj : j < field w0 0 8) :
      (id :: pairs ++ rest).getD (1 + 3 * j) 0#32 = pairs.getD (3 * j) 0#32 := by
    rw [Nat.add_comm, List.cons_append, List.getD_cons_succ, List.getD_append _ _ _ _ (by omega)]
  rw [List.drop_succ_cons, List.drop_zero, exists_decodePairs_iff hpairs.ge]
  push Not
  exact forall₂_congr fun j hj => by rw [hgetD j hj]

/-- A node command can be read where the `NODE` field is below 2 (R42, R49 d). -/
theorem exists_nodeCommand_iff {f : NodeIx → Instr} :
    (∃ i, ∃ n : NodeIx, field w0 16 8 = n.val ∧ f n = i) ↔ ¬ 2 ≤ field w0 16 8 :=
  ⟨fun ⟨_, n, hn, _⟩ => hn ▸ Nat.not_le.2 n.isLt, fun h => ⟨_, ⟨_, Nat.not_le.1 h⟩, rfl, rfl⟩⟩

/-- R49 (a): under a reserved opcode every command is malformed. -/
theorem malformed_of_reserved (hop : Opcode.ofCode (opc w0) = none) : Malformed w0 args := by
  have hcode := field_ne_code_of_reserved hop
  unfold Malformed
  split
  · next h => exact absurd h (hcode .decode)
  · next h => exact absurd h (hcode .encode)
  · next h => exact absurd h (hcode .crcCompute)
  · next h => exact absurd h (hcode .crcClassify)
  · next h => exact absurd h (hcode .onSuccess)
  · next h => exact absurd h (hcode .onFailure)
  · next h => exact absurd h (hcode .onBusOffTick)
  · trivial

/-- R49: a complete command is read as an instruction exactly when it is not malformed. -/
theorem exists_decodeComplete_iff (rest : List Word) (hlen : args.length + 1 = commandLength w0) :
    (∃ i, decodeComplete w0 args = .ok i) ↔ ¬ Malformed w0 (args ++ rest) := by
  cases hop : Opcode.ofCode (opc w0) with
  | none => exact iff_of_false (by simp [decodeComplete, hop]) (not_not.2 (malformed_of_reserved hop))
  | some op =>
    simp only [decodeComplete, hop, Malformed, field_eq_code hop]
    cases op with
    | decode => simp [Opcode.code, decodeFormatF_eq_ok_iff, and_assoc]
    | encode =>
      change _ ↔ ¬ (_ ∨ _)
      rw [not_or, ← exists_pairs_iff rest (length_args_of_encode hlen hop)]
      simp [decodeFormatE_eq_ok_iff]
    | crcCompute => simp [Opcode.code, decodeFormatP_eq_ok_iff]
    | crcClassify => simp [Opcode.code, decodeFormatC_eq_ok_iff]
    | onSuccess =>
      simp only [decodeOnSuccess_eq_ok_iff, exists_and_left, exists_nodeCommand_iff]
      exact (not_or.trans (and_congr_left' not_not)).symm
    | onFailure =>
      simp only [decodeOnFailure_eq_ok_iff]
      exact exists_nodeCommand_iff
    | onBusOffTick =>
      simp only [decodeOnBusOffTick_eq_ok_iff]
      exact exists_nodeCommand_iff

end

/-- R40, R49: what the decoder answers when all the words of a command are there. -/
theorem decode_complete {w0 : Word} {args : List Word} (h : wordsOf w0 ≤ args.length + 1) :
    (Malformed w0 args ∧ ∃ e, decode (w0 :: args) = .illegal e (wordsOf w0)) ∨
      (¬ Malformed w0 args ∧ ∃ i, decode (w0 :: args) = .command i (wordsOf w0)) := by
  rw [← commandLength_eq_wordsOf] at h ⊢
  obtain ⟨-, hshort⟩ | ⟨w, args', rest, hws, hlen, hd⟩ := decode_cases (w0 :: args)
  · exact absurd (hshort w0 rfl) (Nat.not_lt.2 h)
  · obtain ⟨rfl, rfl⟩ := List.cons.inj hws
    have hiff := exists_decodeComplete_iff rest hlen
    obtain ⟨i, hok, hd⟩ | ⟨e, herror, hd⟩ := hd
    · exact .inr ⟨hiff.1 ⟨i, hok⟩, i, hd⟩
    · refine .inl ⟨not_not.1 fun hm => ?_, e, hd⟩
      obtain ⟨i, hok⟩ := hiff.2 hm
      cases herror.symm.trans hok

/-- Settles O5: the decoder refuses a complete command exactly when it is malformed, and the step then answers ILLEGAL. -/
theorem illegalCommandAnswersIllegal : Obligations.IllegalCommandAnswersIllegal := by
  intro s w0 args hs hws hlen
  obtain ⟨hm, e, hd⟩ | ⟨hm, hd⟩ := decode_complete hlen
  · rw [← hws] at hd
    refine ⟨fun _ => ?_, absurd hm⟩
    rw [step_of_illegal hd, execIllegal_of_valid (s := s.consume (wordsOf w0)) hs]
    rfl
  · exact ⟨fun h => absurd h hm, fun _ => hd⟩

/-! ## Incomplete commands (R40, V6) -/

theorem decode_eq_incomplete {ws : List Word} (h : ∀ w0, ws.head? = some w0 → ws.length < wordsOf w0) :
    decode ws = .incomplete := by
  obtain ⟨hd, -⟩ | ⟨w0, args, rest, rfl, hlen, -⟩ := decode_cases ws
  · exact hd
  · have hshort := h w0 rfl
    simp only [← commandLength_eq_wordsOf, ← hlen, List.length_cons, List.length_append] at hshort
    omega

/-- V6: with no reset on the stream, a block with nothing complete to do waits. -/
theorem waitOrReset_of_no_reset {s : State} (hs : s.valid = true) (h : afterWords s.inputs = []) :
    waitOrReset s = .next s := by
  rw [waitOrReset, onBlock_of_valid hs, h]

/-- Settles O6: the words read as incomplete, and no reset stands after them. -/
theorem incompleteCommandWaits : Obligations.IncompleteCommandWaits := by
  intro s ws hs hinputs hshort
  have hstream : s.inputs = ws.map .word ++ [] := by rw [hinputs, List.append_nil]
  have hleading : leadingWords s.inputs = ws := by
    rw [hstream, leadingWords_map_word_append, leadingWords, List.append_nil]
  have hafter : afterWords s.inputs = [] := by rw [hstream, afterWords_map_word_append, afterWords]
  rw [step_of_incomplete (hleading ▸ decode_eq_incomplete hshort), waitOrReset_of_no_reset hs hafter]

end Sys2Proof.Proofs

/-! The one rounding that every f64 operation ends in (R67): how near its answer is, and from where on it is infinite. -/

namespace Sys2Proof.Proofs

open Machine

/-! ## The integer nearest to a quotient -/

section
variable {num den : Nat} (h : 0 < den)
include h

theorem le_nearestEven {k : Nat} (hk : k * den ≤ num) : k ≤ nearestEven num den :=
  ((Nat.le_div_iff_mul_le h).2 hk).trans (nearestEven_le_succ num den).2

/-- An even integer is reached from half a step below it on. -/
theorem le_nearestEven_iff {k : Nat} (hk : k % 2 = 0) : k ≤ nearestEven num den ↔ 2 * (k * den) ≤ 2 * num + den := by
  obtain ⟨hle, hge⟩ := nearestEven_bounds num den h
  have htie := nearestEven_tie num den h
  generalize nearestEven num den = n at *
  constructor
  · intro hkn
    have := Nat.mul_le_mul_right den hkn
    omega
  · intro hmul
    by_contra hlt
    have hstep : n * den + den ≤ k * den := Nat.succ_mul n den ▸ Nat.mul_le_mul_right den (Nat.not_le.1 hlt)
    have heven : n % 2 = 0 := htie (.inr (by omega))
    have hsucc : k * den = (n + 1) * den := by rw [Nat.succ_mul]; omega
    have := Nat.eq_of_mul_eq_mul_right h hsucc
    omega

/-- No integer is nearer to the quotient, and where another is as near the answer is even. -/
theorem nearestEven_isNearest (y : Nat) :
    |(num : Int) - (nearestEven num den * den : Nat)| ≤ |(num : Int) - (y * den : Nat)| ∧
      (|(num : Int) - (nearestEven num den * den : Nat)| = |(num : Int) - (y * den : Nat)| → y ≠ nearestEven num den →
        nearestEven num den % 2 = 0) := by
  obtain ⟨hle, hge⟩ := nearestEven_bounds num den h
  have htie := nearestEven_tie num den h
  generalize nearestEven num den = n at *
  simp only [Int.abs_eq_natAbs]
  rcases Nat.lt_trichotomy y n with hlt | rfl | hgt
  · have : y * den + den ≤ n * den := Nat.succ_mul y den ▸ Nat.mul_le_mul_right den hlt
    omega
  · exact ⟨le_rfl, fun _ hne => absurd rfl hne⟩
  · have : n * den + den ≤ y * den := Nat.succ_mul n den ▸ Nat.mul_le_mul_right den hgt
    omega

end

/-! ## Binades -/

theorem binade_le_iff (mag e : Nat) : binade mag ≤ e ↔ mag < 2 ^ (53 + e) := by
  by_cases h0 : mag = 0
  · simp [h0, binade]
  · rw [← Nat.log2_lt h0, binade]
    omega

/-- Above binade 0 a magnitude has bit `52 + e` of its binade `e` or a higher one. -/
theorem two_pow_le_of_lt_binade {mag e : Nat} (h : e < binade mag) : 2 ^ (53 + e) ≤ mag :=
  Nat.not_lt.1 fun hlt => Nat.not_lt.2 ((binade_le_iff mag e).2 hlt) h

/-- Above binade 0 a magnitude is at least `2^52` of its last places. -/
theorem two_pow_mul_le_of_binade_pos {mag : Nat} (h : 0 < binade mag) : 2 ^ 52 * 2 ^ binade mag ≤ mag := by
  obtain ⟨-, hle, -⟩ := binade_ge (Nat.not_lt.1 fun hlt => h.ne' (binade_lt hlt))
  rwa [← Nat.pow_add]

/-- An f64 of a binade or a higher one is a multiple of the binade's last place. -/
theorem two_pow_dvd_of_grid {x e : Nat} (hx : Grid x) (h : 2 ^ 52 * 2 ^ e ≤ x) : 2 ^ e ∣ x := by
  rw [← Nat.pow_add] at h
  cases e with
  | zero => exact one_dvd x
  | succ e =>
    rw [show 52 + (e + 1) = 53 + e by omega] at h
    have hlt : e < binade x := Nat.not_le.1 fun hle => Nat.not_lt.2 h ((binade_le_iff x e).1 hle)
    exact (Nat.pow_dvd_pow 2 hlt).trans hx.2

/-- The last place of a quotient that is not 0 is no more than the quotient. -/
theorem two_pow_binade_le {q : Nat} (h : 0 < q) : 2 ^ binade q ≤ q := by
  rcases Nat.eq_zero_or_pos (binade q) with h0 | hpos
  · rw [h0]
    exact h
  · exact (Nat.le_mul_of_pos_left _ (by decide)).trans (two_pow_mul_le_of_binade_pos hpos)

/-! ## Significand and last place of a rounded quotient -/

/-- The last place of the binade of `num / den`. -/
def lastPlace (num den : Nat) : Nat := 2 ^ binade (num / den)

/-- The rounded quotient in last places. -/
def significand (num den : Nat) : Nat := nearestEven num (den * lastPlace num den)

/-- The rounded quotient, before it is compared with the largest f64. -/
def roundedMag (num den : Nat) : Nat := significand num den * lastPlace num den

theorem roundQuot_eq (neg : Bool) (num den : Nat) :
    roundQuot neg num den = if roundedMag num den < foverflow then .fin neg (roundedMag num den) else .inf neg := rfl

theorem lastPlace_pos (num den : Nat) : 0 < lastPlace num den := Nat.two_pow_pos _

theorem significand_le (num den : Nat) : significand num den ≤ 2 ^ 53 :=
  (nearestEven_le_succ num _).1.trans (div_scaled_lt num den)

theorem roundedMag_mul (num den : Nat) :
    roundedMag num den * den = significand num den * (den * lastPlace num den) := by
  rw [roundedMag, Nat.mul_assoc, Nat.mul_comm den]

theorem scaled_pos (num : Nat) {den : Nat} (h : 0 < den) : 0 < den * lastPlace num den :=
  Nat.mul_pos h (lastPlace_pos num den)

section
variable {num den : Nat} (h : 0 < den)
include h

/-- Above binade 0 the quotient is at least `2^52` last places. -/
theorem two_pow_mul_lastPlace_le (hb : 0 < binade (num / den)) : 2 ^ 52 * (den * lastPlace num den) ≤ num := by
  calc 2 ^ 52 * (den * lastPlace num den) = 2 ^ 52 * lastPlace num den * den := by
        rw [Nat.mul_comm den, Nat.mul_assoc]
    _ ≤ num := (Nat.le_div_iff_mul_le h).1 (two_pow_mul_le_of_binade_pos hb)

/-- A significand is normal: it has 53 bits, or the quotient is in binade 0. -/
theorem significand_normal (hb : 0 < binade (num / den)) : 2 ^ 52 ≤ significand num den :=
  le_nearestEven (scaled_pos num h) (two_pow_mul_lastPlace_le h hb)

/-- A quotient of at least one unit does not round to 0. -/
theorem roundedMag_pos (hq : den ≤ num) : 0 < roundedMag num den := by
  have hdiv : 0 < num / den := Nat.div_pos hq h
  refine Nat.mul_pos (le_nearestEven (scaled_pos num h) ?_) (lastPlace_pos num den)
  calc 1 * (den * lastPlace num den) = lastPlace num den * den := by rw [Nat.one_mul, Nat.mul_comm]
    _ ≤ num / den * den := Nat.mul_le_mul_right den (two_pow_binade_le hdiv)
    _ ≤ num := Nat.div_mul_le_self num den

/-- No f64 is nearer to the quotient, and where another is as near the significand is even. -/
theorem roundedMag_isNearest {x : Nat} (hx : Grid x) :
    |(num : Int) - (roundedMag num den * den : Nat)| ≤ |(num : Int) - (x * den : Nat)| ∧
      (|(num : Int) - (roundedMag num den * den : Nat)| = |(num : Int) - (x * den : Nat)| → x ≠ roundedMag num den →
        significand num den % 2 = 0) := by
  have hnearest := nearestEven_isNearest (num := num) (scaled_pos num h)
  rw [roundedMag_mul]
  by_cases hdvd : lastPlace num den ∣ x
  · obtain ⟨y, rfl⟩ := hdvd
    rw [show lastPlace num den * y * den = y * (den * lastPlace num den) by ring]
    obtain ⟨hle, htie⟩ := hnearest y
    refine ⟨hle, fun heq hne => htie heq ?_⟩
    rintro rfl
    exact hne (Nat.mul_comm _ _)
  · -- such an f64 lies below the binade, whose first magnitude is nearer
    have hb : 0 < binade (num / den) := by
      by_contra h0
      rw [lastPlace, Nat.eq_zero_of_not_pos h0] at hdvd
      exact hdvd (one_dvd x)
    have hlt : x < 2 ^ 52 * lastPlace num den := by
      exact Nat.not_le.1 fun hle => hdvd (two_pow_dvd_of_grid hx hle)
    have hfirst := two_pow_mul_lastPlace_le h hb
    have hmul : x * den < 2 ^ 52 * (den * lastPlace num den) := by
      rw [Nat.mul_comm den, ← Nat.mul_assoc]
      exact Nat.mul_lt_mul_of_pos_right hlt h
    have hle := (hnearest (2 ^ 52)).1
    rw [significand]
    simp only [Int.abs_eq_natAbs] at hle ⊢
    generalize 2 ^ 52 * (den * lastPlace num den) = first at *
    omega

/-- The rounded quotient reaches a power of two from half a last place below it on. -/
theorem two_pow_le_roundedMag_iff (e : Nat) :
    2 ^ (54 + e) ≤ roundedMag num den ↔ (2 ^ 54 - 1) * 2 ^ e * den ≤ num := by
  have hn := significand_le num den
  have hp := Nat.two_pow_pos e
  rw [roundedMag]
  rcases Nat.lt_trichotomy (binade (num / den)) (e + 1) with hb | hb | hb
  · have hq : num < 2 ^ (53 + e) * den := (Nat.div_lt_iff_lt_mul h).1 ((binade_le_iff _ e).1 (Nat.lt_succ_iff.1 hb))
    refine iff_of_false (Nat.not_le.2 ?_) (Nat.not_le.2 ?_)
    · calc significand num den * lastPlace num den ≤ 2 ^ 53 * 2 ^ e :=
            Nat.mul_le_mul hn (Nat.pow_le_pow_right (by decide) (Nat.lt_succ_iff.1 hb))
        _ < 2 ^ (54 + e) := by rw [Nat.pow_add]; omega
    · refine hq.trans_le (Nat.mul_le_mul_right den ?_)
      rw [Nat.pow_add]
      omega
  · have hu : lastPlace num den = 2 * 2 ^ e := by rw [lastPlace, hb, Nat.pow_succ, Nat.mul_comm]
    have hiff := le_nearestEven_iff (num := num) (scaled_pos num h) (k := 2 ^ 53) (by decide)
    rw [show 2 ^ (54 + e) = 2 ^ 53 * lastPlace num den by rw [hu, Nat.pow_add]; ring,
      Nat.mul_le_mul_right_iff (lastPlace_pos num den), significand, hiff, hu]
    rw [show den * (2 * 2 ^ e) = 2 * (2 ^ e * den) by ring, Nat.mul_assoc _ _ den]
    omega
  · have hq : 2 ^ (54 + e) ≤ num / den :=
      (Nat.pow_le_pow_right (by decide) (by omega)).trans (two_pow_le_of_lt_binade hb)
    have hs := significand_normal h (Nat.zero_lt_of_lt hb)
    refine iff_of_true ?_ (le_trans ?_ ((Nat.le_div_iff_mul_le h).1 hq))
    · calc 2 ^ (54 + e) = 2 ^ 52 * 2 ^ (e + 2) := by rw [← Nat.pow_add]; congr 1; omega
        _ ≤ significand num den * lastPlace num den :=
            Nat.mul_le_mul hs (Nat.pow_le_pow_right (by decide) hb)
    · refine Nat.mul_le_mul_right den ?_
      rw [Nat.pow_add]
      omega

/-- The pattern of a rounded quotient has the last bit of its significand. -/
theorem finBits_roundedMag_even (heven : significand num den % 2 = 0) : finBits (roundedMag num den) % 2 = 0 := by
  have hle := significand_le num den
  have hnormal := significand_normal (num := num) h
  rw [roundedMag, lastPlace]
  generalize significand num den = n at *
  generalize binade (num / den) = e at *
  have hp := Nat.two_pow_pos e
  suffices hquot : n * 2 ^ e / 2 ^ binade (n * 2 ^ e) % 2 = 0 by
    rw [finBits]
    omega
  rcases Nat.lt_or_eq_of_le hle with hlt | rfl
  · have hb : binade (n * 2 ^ e) = e := by
      cases Nat.eq_zero_or_pos e with
      | inl h0 => rw [h0, pow_zero, Nat.mul_one, binade_lt hlt]
      | inr hpos =>
        refine binade_of_range ?_ ?_ <;> rw [Nat.pow_add]
        · exact Nat.mul_le_mul_right _ (hnormal hpos)
        · exact Nat.mul_lt_mul_of_pos_right hlt hp
    rw [hb, Nat.mul_div_cancel _ hp, heven]
  · have hb : binade (2 ^ 53 * 2 ^ e) = e + 1 :=
      binade_of_range (by rw [← Nat.pow_add]; exact Nat.pow_le_pow_right (by decide) (by omega))
        (by rw [← Nat.pow_add]; exact Nat.pow_lt_pow_right (by decide) (by omega))
    rw [hb, show 2 ^ 53 * 2 ^ e = 2 ^ 52 * 2 ^ (e + 1) by ring, Nat.mul_div_cancel _ (Nat.two_pow_pos _)]
    rfl

end

/-! ## The rounding of R67 -/

theorem foverflow_eq_add : foverflow = 2 ^ (54 + 2044) :=
  foverflow_eq.trans (congrArg (HPow.hPow 2) (show 2098 = 54 + 2044 from rfl))

theorem roundQuot_of_lt (neg : Bool) {num den : Nat} (h : 0 < den) (hlt : num < (2 ^ 54 - 1) * 2 ^ 2044 * den) :
    roundQuot neg num den = .fin neg (roundedMag num den) := by
  rw [roundQuot_eq, if_pos]
  rw [foverflow_eq_add]
  exact Nat.not_le.1 fun hle => Nat.not_le.2 hlt ((two_pow_le_roundedMag_iff h 2044).1 hle)

theorem roundQuot_eq_inf_iff (neg : Bool) {num den : Nat} (h : 0 < den) :
    roundQuot neg num den = .inf neg ↔ (2 ^ 54 - 1) * 2 ^ 2044 * den ≤ num := by
  rw [← two_pow_le_roundedMag_iff h, ← foverflow_eq_add, roundQuot_eq]
  split
  · next hlt => exact iff_of_false nofun (Nat.not_le.2 hlt)
  · next hge => exact iff_of_true rfl (Nat.not_lt.1 hge)

theorem grid_of_roundQuot {neg : Bool} {num den mag : Nat} (h : roundQuot neg num den = .fin neg mag) : Grid mag := by
  obtain hinf | ⟨mag', hgrid, hfin⟩ := roundQuot_cases neg num den
  · cases h.symm.trans hinf
  · cases h.symm.trans hfin
    exact hgrid

theorem getLsbD_zero_toBits_fin (neg : Bool) (mag : Nat) (d : BitVec 64) (h : finBits mag % 2 = 0) :
    (toBits (.fin neg mag) d).getLsbD 0 = false := by
  rw [toBits, BitVec.getLsbD_append, if_pos (by decide), BitVec.getLsbD_ofNat, Nat.testBit_zero, h]
  rfl

/-- Settles O49: below the bound the answer is the rounded quotient, which no f64 is nearer than. -/
theorem roundingIsToNearestEven : Obligations.RoundingIsToNearestEven := by
  intro neg num den h
  refine ⟨roundQuot_eq_inf_iff neg h, fun hlt => ?_⟩
  have hfin := roundQuot_of_lt neg h hlt
  refine ⟨_, toBits (.fin neg (roundedMag num den)) 0#64, hfin, toBits_fin neg _ (grid_of_roundQuot hfin) _,
    fun c x hc => ?_⟩
  obtain ⟨hx, -, -⟩ := ofBits_fin hc
  obtain ⟨hle, htie⟩ := roundedMag_isNearest (num := num) h hx
  push_cast at hle htie
  exact ⟨hle, fun heq hne => getLsbD_zero_toBits_fin neg _ _ (finBits_roundedMag_even h (htie heq hne))⟩

/-- An f64 magnitude times a denominator rounds to the magnitude (R67). -/
theorem roundQuot_of_grid (neg : Bool) {mag den : Nat} (hmag : Grid mag) (h : 0 < den) :
    roundQuot neg (mag * den) den = .fin neg mag := by
  obtain ⟨hlt, y, hy⟩ := hmag
  have hplace : lastPlace (mag * den) den = 2 ^ binade mag := by rw [lastPlace, Nat.mul_div_cancel _ h]
  have hnum : mag * den = y * (den * 2 ^ binade mag) := by
    conv_lhs => rw [hy]
    ring
  have hsig : significand (mag * den) den = y := by
    rw [significand, hplace, hnum]
    exact nearest_exact .halfEven y _ (Nat.mul_pos h (Nat.two_pow_pos _))
  have hround : roundedMag (mag * den) den = mag := by rw [roundedMag, hsig, hplace, Nat.mul_comm, ← hy]
  rw [roundQuot_eq, hround, if_pos (foverflow_eq ▸ hlt)]

/-- Settles O50: the value of a pattern is an f64 magnitude. -/
theorem exactResultsAreNotRounded : Obligations.ExactResultsAreNotRounded := by
  intro neg b mag den hb h
  obtain ⟨hmag, -, -⟩ := ofBits_fin hb
  exact roundQuot_of_grid neg hmag h

end Sys2Proof.Proofs

/-! The f64 arithmetic: bit patterns, the four operations, and the conversions (R66 to R70). -/

namespace Sys2Proof.Proofs

open Machine Safety

/-! ## Bit patterns (R66) -/

/-- A pattern is a NaN where its exponent field is full and its fraction is not 0. -/
theorem ofBits_eq_nan_iff (b : F64) : ofBits b = .nan ↔ F64.expField b = 2047 ∧ F64.fracField b ≠ 0 := by
  unfold ofBits
  split_ifs <;> simp [*]

theorem ofBits_eq_inf {b : F64} {neg : Bool} (h : ofBits b = .inf neg) :
    F64.expField b = 2047 ∧ F64.fracField b = 0 ∧ neg = F64.sign b := by
  unfold ofBits at h
  split_ifs at h with hexp hfrac
  cases h
  exact ⟨hexp, hfrac, rfl⟩

/-- The low 63 bits of a pattern are its exponent and fraction fields. -/
theorem toNat_eq_sign_add (b : F64) : b.toNat = (F64.sign b).toNat * 2 ^ 63 + b.toNat % 2 ^ 63 := by
  have hexp := exp_lt b
  have hfrac := frac_lt b
  have hlow : F64.expField b * 2 ^ 52 + F64.fracField b < 2 ^ 63 := by omega
  rw [toNat_decomp b, Nat.add_assoc, Nat.mul_add_mod', Nat.mod_eq_of_lt hlow]

/-- A value that is not a NaN is shown by the one pattern it was read from. -/
theorem toBits_ofBits {b : F64} (h : ofBits b ≠ .nan) (d : BitVec 64) : toBits (ofBits b) d = b := by
  apply BitVec.eq_of_toNat_eq
  cases hb : ofBits b with
  | nan => exact absurd hb h
  | inf neg =>
    obtain ⟨hexp, hfrac, rfl⟩ := ofBits_eq_inf hb
    rw [toBits, toNat_fields, toNat_bit, toNat_decomp b, hexp, hfrac]
    rfl
  | fin neg mag =>
    obtain ⟨-, hmag, rfl⟩ := ofBits_fin hb
    rw [toBits, toNat_signed, BitVec.toNat_ofNat, hmag, Nat.mod_mod, ← toNat_eq_sign_add]

/-- A NaN pattern is shown where it is itself the free value. -/
theorem nanBits_of_nan {b : F64} (h : ofBits b = .nan) : nanBits b = b := by
  obtain ⟨hexp, hfrac⟩ := (ofBits_eq_nan_iff b).1 h
  have hne : b.extractLsb' 0 52 ≠ 0#52 := fun h0 => hfrac (congrArg BitVec.toNat h0)
  have hsign : (b.extractLsb' 63 1).toNat = (F64.sign b).toNat := by
    rw [F64.sign, BitVec.getLsbD, Nat.toNat_testBit, BitVec.extractLsb'_toNat, Nat.shiftRight_eq_div_pow, pow_one]
  apply BitVec.eq_of_toNat_eq
  rw [nanBits, if_neg hne, toNat_fields, hsign, toNat_decomp b, hexp]
  rfl

/-- Settles O48: a pattern that is no NaN is its sign and its magnitude, and a NaN pattern is that of itself as the
free value. -/
theorem bitPatternsAndValuesAgree : Obligations.BitPatternsAndValuesAgree := fun _ d =>
  ⟨fun h => toBits_ofBits h d, fun h => ⟨toBits_nan d, nanBits_of_nan h⟩⟩

/-! ## The four operations (R67) -/

@[simp] theorem nan_fadd (x : FVal) : fadd .nan x = .nan := by cases x <;> rfl
@[simp] theorem fadd_nan (x : FVal) : fadd x .nan = .nan := by cases x <;> rfl
@[simp] theorem nan_fsub (x : FVal) : fsub .nan x = .nan := nan_fadd _
@[simp] theorem fsub_nan (x : FVal) : fsub x .nan = .nan := fadd_nan x
@[simp] theorem nan_fmul (x : FVal) : fmul .nan x = .nan := by cases x <;> rfl
@[simp] theorem fmul_nan (x : FVal) : fmul x .nan = .nan := by cases x <;> rfl
@[simp] theorem nan_fdiv (x : FVal) : fdiv .nan x = .nan := by cases x <;> rfl
@[simp] theorem fdiv_nan (x : FVal) : fdiv x .nan = .nan := by cases x <;> rfl

theorem signed_not (s : Bool) (a : Nat) : signed (!s) a = -signed s a := by
  cases s <;> simp [signed]

theorem signed_eq_zero_iff (s : Bool) (a : Nat) : signed s a = 0 ↔ a = 0 := by
  cases s <;> simp [signed]

theorem signed_add_signed (s : Bool) (a b : Nat) : signed s a + signed s b = signed s (a + b) := by
  cases s <;> simp only [signed, Bool.false_eq_true, if_true, if_false] <;> omega

theorem signed_sub_signed (s : Bool) {a b : Nat} (h : b ≤ a) : signed s a - signed s b = signed s (a - b) := by
  cases s <;> simp only [signed, Bool.false_eq_true, if_true, if_false] <;> omega

/-- An integer that is not 0 is rounded with its own sign. -/
theorem roundQuot_signed {s : Bool} {a : Nat} (h : signed s a ≠ 0) :
    roundQuot (decide (signed s a < 0)) (signed s a).natAbs 1 = roundQuot s a 1 := by
  have hpos : 0 < a := Nat.pos_of_ne_zero ((signed_eq_zero_iff s a).not.1 h)
  have hneg : ¬ (a : Int) < 0 := by omega
  cases s <;> simp [signed, hpos, hneg]

theorem grid_zero : Grid 0 := by
  obtain ⟨h, -, -⟩ := ofBits_fin (b := 0#64) (neg := false) (mag := 0) (by decide)
  exact h

/-- An f64 magnitude is its own rounding. -/
theorem roundQuot_one_of_grid (s : Bool) {mag : Nat} (h : Grid mag) : roundQuot s mag 1 = .fin s mag := by
  simpa only [Nat.mul_one] using roundQuot_of_grid s h Nat.one_pos

/-- The sum of finite values is the exact sum rounded once, or a zero whose sign is that of two terms `-0`. -/
theorem fadd_fin_fin (s t : Bool) (a b : Nat) :
    (signed s a + signed t b ≠ 0 → fadd (.fin s a) (.fin t b)
      = roundQuot (decide (signed s a + signed t b < 0)) (signed s a + signed t b).natAbs 1) ∧
    (signed s a + signed t b = 0 → fadd (.fin s a) (.fin t b) = .fin (s && t) 0) := by
  obtain rfl | rfl : t = s ∨ t = !s := by cases s <;> cases t <;> simp
  · rw [fadd, if_pos rfl, signed_add_signed, Bool.and_self]
    refine ⟨fun h => (roundQuot_signed h).symm, fun h => ?_⟩
    rw [(signed_eq_zero_iff _ _).1 h, roundQuot_one_of_grid _ grid_zero]
  · rw [fadd, if_neg (by cases s <;> decide), signed_not, ← sub_eq_add_neg, Bool.and_not_self]
    rcases Nat.lt_trichotomy a b with hlt | rfl | hgt
    · have hsub : signed s a - signed s b = signed (!s) (b - a) := by
        rw [signed_not, ← signed_sub_signed s hlt.le, neg_sub]
      rw [if_neg hlt.asymm, if_pos hlt, hsub, signed_eq_zero_iff]
      exact ⟨fun h => (roundQuot_signed h).symm, fun h => by omega⟩
    · rw [if_neg (lt_irrefl a), if_neg (lt_irrefl a)]
      exact ⟨fun h => absurd (sub_self _) h, fun _ => rfl⟩
    · rw [if_pos hgt, signed_sub_signed s hgt.le, signed_eq_zero_iff]
      exact ⟨fun h => (roundQuot_signed h).symm, fun h => by omega⟩

theorem fdiv_zero_of_pos (s t : Bool) {a : Nat} (h : 0 < a) : fdiv (.fin s a) (.fin t 0) = .inf (s ^^ t) := by
  rw [fdiv, if_pos rfl, if_neg h.ne']

/-- Settles O51: finite operands, then one infinity, then two, then a NaN. -/
theorem operationsRoundTheExactResultOnce : Obligations.OperationsRoundTheExactResultOnce := by
  refine ⟨fun s t a b => ?_, fun s t a => ?_, fun s t => ?_, fun x => ?_⟩
  · obtain ⟨hadd, hadd0⟩ := fadd_fin_fin s t a b
    obtain ⟨hsub, hsub0⟩ := fadd_fin_fin s (!t) a b
    rw [signed_not, ← sub_eq_add_neg] at hsub hsub0
    exact ⟨hadd, hadd0, hsub, hsub0, rfl, fun hb => if_neg hb.ne', fun ha => fdiv_zero_of_pos s t ha, rfl⟩
  · exact ⟨rfl, rfl, rfl, rfl, fun ha => ⟨if_neg ha.ne', if_neg ha.ne'⟩, rfl, rfl, rfl, rfl⟩
  · exact ⟨if_pos rfl, if_neg (by cases s <;> decide), if_pos (Bool.not_not s).symm,
      if_neg (by cases s <;> decide), rfl, rfl⟩
  · exact ⟨nan_fadd x, fadd_nan x, nan_fsub x, fsub_nan x, nan_fmul x, fmul_nan x, nan_fdiv x, fdiv_nan x⟩

/-! ## Conversion of an integer (R68) -/

/-- The unit is a power of two, whose exponent stays a variable in the proofs. -/
theorem fone_eq_two_pow : ∃ e, e = 1074 ∧ fone = 2 ^ e := ⟨1074, rfl, fone_eq⟩

theorem mul_fone_lt_two_pow {raw n : Nat} (h : raw < 2 ^ 64) (hn : 1138 ≤ n) : raw * fone < 2 ^ n := by
  obtain ⟨e, he, hfone⟩ := fone_eq_two_pow
  rw [hfone]
  calc raw * 2 ^ e < 2 ^ 64 * 2 ^ e := Nat.mul_lt_mul_of_pos_right h (Nat.two_pow_pos e)
    _ = 2 ^ (64 + e) := (Nat.pow_add 2 64 e).symm
    _ ≤ 2 ^ n := Nat.pow_le_pow_right (by decide) (by omega)

/-- Every integer below `2^64` is far below the bound past which a quotient rounds to an infinity. -/
theorem mul_fone_lt {raw : Nat} (h : raw < 2 ^ 64) : raw * fone < (2 ^ 54 - 1) * 2 ^ 2044 * 1 := by
  calc raw * fone < 2 ^ 2044 := mul_fone_lt_two_pow h (by decide)
    _ ≤ (2 ^ 54 - 1) * 2 ^ 2044 := Nat.le_mul_of_pos_left _ (by decide)
    _ = _ := (Nat.mul_one _).symm

theorem u2f_eq {raw : Nat} (h : raw < 2 ^ 64) : u2f raw = .fin false (roundedMag (raw * fone) 1) :=
  roundQuot_of_lt false Nat.one_pos (mul_fone_lt h)

/-- At most 53 significant bits make an f64 integer. -/
theorem grid_mul_fone {m k : Nat} (hm : m ≤ 2 ^ 53) (h : m * 2 ^ k < 2 ^ 64) : Grid (m * 2 ^ k * fone) := by
  have hlt : m * 2 ^ k * fone < 2 ^ 2098 := mul_fone_lt_two_pow h (by decide)
  obtain ⟨e, -, hfone⟩ := fone_eq_two_pow
  rw [hfone, Nat.mul_assoc, ← Nat.pow_add] at hlt ⊢
  exact grid_of_mul hm hlt

/-- Settles O52: the conversion is the rounding of an integer that is in range. -/
theorem conversionIsToNearestEvenAndExactTo53Bits : Obligations.ConversionIsToNearestEvenAndExactTo53Bits := by
  refine ⟨fun raw hraw => ⟨rfl, ?_⟩, fun m k hm hlt => roundQuot_one_of_grid false (grid_mul_fone hm hlt)⟩
  obtain ⟨-, hround⟩ := roundingIsToNearestEven false (raw * fone) 1 Nat.one_pos
  obtain ⟨mag, b, hfin, hb, hnearest⟩ := hround (mul_fone_lt hraw)
  simp only [Nat.cast_mul, Nat.cast_one, mul_one] at hnearest
  exact ⟨mag, b, hfin, hb, hnearest⟩

/-! ## Rounding to an integer (R69) -/

/-- Under both tie rules the integer is at most half a step away. -/
theorem nearest_bounds (ties : TieRule) {num den : Nat} (h : 0 < den) :
    2 * (nearest ties num den * den) ≤ 2 * num + den ∧ 2 * num ≤ 2 * (nearest ties num den * den) + den := by
  cases ties with
  | halfEven => exact nearestEven_bounds num den h
  | halfAway =>
    obtain ⟨hle, hge, -⟩ := nearestAway_bounds num den h
    exact ⟨hle, hge⟩

theorem roundInt_fin (ties : TieRule) (neg : Bool) (mag : Nat) :
    roundInt ties (.fin neg mag) = .fin neg (nearest ties mag fone * fone) := rfl

/-- From `2^52` on every f64 is an integer. -/
theorem integer_of_grid {mag : Nat} (hmag : Grid mag) (h : 2 ^ 52 * fone ≤ mag) : ∃ k, mag = k * fone := by
  obtain ⟨e, -, hfone⟩ := fone_eq_two_pow
  rw [hfone] at h ⊢
  exact exists_eq_mul_left_of_dvd (two_pow_dvd_of_grid hmag h)

theorem roundInt_of_integer (ties : TieRule) (neg : Bool) (k : Nat) :
    roundInt ties (.fin neg (k * fone)) = .fin neg (k * fone) := by
  rw [roundInt_fin, nearest_exact ties k fone fone_pos]

/-- Settles O53: the nearest integer is at most half a step away, and a magnitude from `2^52` on is an integer. -/
theorem roundIntIsTheNearestInteger : Obligations.RoundIntIsTheNearestInteger := by
  refine fun ties => ⟨rfl, fun _ => rfl, fun neg mag => ⟨_, roundInt_fin ties neg mag, ?_, ?_⟩,
    fun b neg mag hb h => ?_⟩
  · obtain ⟨hle, hge⟩ := nearest_bounds ties (num := mag) fone_pos
    rw [← Nat.cast_mul, Int.abs_eq_natAbs]
    omega
  · rw [← Nat.cast_mul, Int.abs_eq_natAbs]
    intro htie
    have hpos := fone_pos
    cases ties with
    | halfEven => exact nearestEven_tie mag fone hpos (by rw [nearest] at htie; omega)
    | halfAway =>
      obtain ⟨-, -, haway⟩ := nearestAway_bounds mag fone hpos
      rw [nearest] at htie ⊢
      omega
  · obtain ⟨hmag, -, -⟩ := ofBits_fin hb
    obtain ⟨k, hk⟩ := integer_of_grid hmag h
    rw [hb, hk, roundInt_of_integer]

/-! ## The unsigned range (R70) -/

/-- An integer fits where it is below `2^n`, and a negative one where it is `-0`. -/
theorem fits_integer_iff (neg : Bool) (k n : Nat) :
    fits (.fin neg (k * fone)) n = true ↔ (neg = true → k = 0) ∧ k < 2 ^ n := by
  have hn := Nat.two_pow_pos n
  cases neg with
  | false =>
    rw [fits, if_neg Bool.false_ne_true, decide_eq_true_iff, Nat.mul_le_mul_right_iff fone_pos,
      Nat.le_sub_one_iff_lt hn]
    exact (and_iff_right nofun).symm
  | true =>
    rw [fits, if_pos rfl, decide_eq_true_iff, Nat.mul_eq_zero, or_iff_left fone_pos.ne']
    exact ⟨fun h => ⟨fun _ => h, h ▸ hn⟩, fun h => h.1 rfl⟩

theorem toInteger_integer (neg : Bool) (k : Nat) : toInteger (.fin neg (k * fone)) = k :=
  Nat.mul_div_cancel k fone_pos

/-- The pattern of a magnitude grows with its binade. -/
theorem finBits_lt_iff (mag e : Nat) : finBits mag < (e + 2) * 2 ^ 52 ↔ mag < 2 ^ (53 + e) := by
  have hp := Nat.two_pow_pos (binade mag)
  have hlt : mag / 2 ^ binade mag < 2 ^ 53 := by
    rw [Nat.div_lt_iff_lt_mul hp, ← Nat.pow_add]
    exact (binade_le_iff mag _).1 le_rfl
  have hge : 0 < binade mag → 2 ^ 52 ≤ mag / 2 ^ binade mag := fun hb =>
    (Nat.le_div_iff_mul_le hp).2 (two_pow_mul_le_of_binade_pos hb)
  rw [← binade_le_iff, finBits]
  omega

/-- A pattern whose sign is 0 is its low bits. -/
theorem toNat_of_sign_false {b : F64} (h : F64.sign b = false) : b.toNat = b.toNat % 2 ^ 63 := by
  conv_lhs => rw [toNat_eq_sign_add b, h, Bool.toNat_false, Nat.zero_mul, Nat.zero_add]

/-- Settles O54: an integer fits where it is below `2^n`, and `0x43F0000000000000` is the pattern of `2^64`. -/
theorem fitsIsTheUnsignedRange : Obligations.FitsIsTheUnsignedRange := by
  refine ⟨fun b k n hb _ _ => ?_, fun n => ⟨rfl, fun _ => rfl, rfl, fun mag hmag => ?_⟩⟩
  · obtain ⟨-, hbits, hsign⟩ := ofBits_fin hb
    obtain ⟨e, he, hfone⟩ := fone_eq_two_pow
    have hpattern : b.toNat < (e + 11 + 2) * 2 ^ 52 ↔ k < 2 ^ 64 := by
      rw [toNat_of_sign_false hsign.symm, ← hbits, finBits_lt_iff, hfone, show 53 + (e + 11) = 64 + e by omega,
        Nat.pow_add, Nat.mul_lt_mul_right (Nat.two_pow_pos e)]
    have hn := Nat.two_pow_pos n
    simp only [hb, fits_integer_iff, toInteger_integer, Bool.false_eq_true, false_imp_iff, true_and, implies_true,
      and_true]
    omega
  · exact decide_eq_false hmag.ne'

end Sys2Proof.Proofs

/-! The raw integer of a value, the physical value of a raw integer, and what special factors and offsets make of them
(R61 to R63, R70, R73). -/

namespace Sys2Proof.Proofs

open Machine Safety

/-! ## Values that are no numbers -/

/-- A NaN or an infinity. -/
def Nonfinite (x : FVal) : Prop := ∀ neg mag, x ≠ .fin neg mag

theorem nonfinite_nan : Nonfinite .nan := nofun

theorem nonfinite_inf (s : Bool) : Nonfinite (.inf s) := nofun

theorem nonfinite_cases {x : FVal} (h : Nonfinite x) : x = .nan ∨ ∃ s, x = .inf s := by
  cases x with
  | nan => exact .inl rfl
  | inf s => exact .inr ⟨s, rfl⟩
  | fin neg mag => exact absurd rfl (h neg mag)

theorem nonfinite_fsub {x : FVal} (h : Nonfinite x) (y : FVal) : Nonfinite (fsub x y) := by
  obtain rfl | ⟨s, rfl⟩ := nonfinite_cases h
  · rw [nan_fsub]
    exact nonfinite_nan
  · cases y with
    | nan => exact nonfinite_nan
    | inf t =>
      rw [fsub, fneg, fadd]
      split
      · exact nonfinite_inf s
      · exact nonfinite_nan
    | fin t b => exact nonfinite_inf s

theorem nonfinite_fdiv {x : FVal} (h : Nonfinite x) (y : FVal) : Nonfinite (fdiv x y) := by
  obtain rfl | ⟨s, rfl⟩ := nonfinite_cases h
  · rw [nan_fdiv]
    exact nonfinite_nan
  · cases y with
    | nan => exact nonfinite_nan
    | inf t => exact nonfinite_nan
    | fin t b => exact nonfinite_inf _

/-- Nothing divided by a zero is a number. -/
theorem nonfinite_fdiv_zero (x : FVal) (t : Bool) : Nonfinite (fdiv x (.fin t 0)) := by
  cases x with
  | nan => exact nonfinite_nan
  | inf s => exact nonfinite_inf _
  | fin s a =>
    rcases Nat.eq_zero_or_pos a with rfl | ha
    · exact nonfinite_nan
    · rw [fdiv_zero_of_pos s t ha]
      exact nonfinite_inf _

/-! ## The raw integer (R63) -/

section
variable {ties : TieRule} {v : F64} {l : SignalLayout}

theorem rawOf_of_nonfinite (h : Nonfinite (fdiv (fsub (ofBits v) (ofBits l.offset)) (ofBits l.factor))) :
    rawOf ties v l = none := by
  rw [rawOf, scaled]
  obtain hq | ⟨s, hq⟩ := nonfinite_cases h <;> rw [hq] <;> rfl

/-- A finite quotient rounds to an integer, which is the raw one where it fits. -/
theorem rawOf_of_fin {neg : Bool} {mag : Nat}
    (h : fdiv (fsub (ofBits v) (ofBits l.offset)) (ofBits l.factor) = .fin neg mag) :
    rawOf ties v l = if (neg = true → nearest ties mag fone = 0) ∧ nearest ties mag fone < 2 ^ l.width then
      some (nearest ties mag fone) else none := by
  simp only [rawOf, scaled, h, roundInt_fin, fits_integer_iff, toInteger_integer]

theorem fin_integer_eq_iff (s t : Bool) (j k : Nat) :
    FVal.fin s (j * fone) = .fin t (k * fone) ↔ s = t ∧ j = k := by
  rw [FVal.fin.injEq, Nat.mul_left_inj fone_pos.ne']

theorem rawOf_eq_some_iff (raw : Nat) : rawOf ties v l = some raw ↔
    ∃ neg, roundInt ties (fdiv (fsub (ofBits v) (ofBits l.offset)) (ofBits l.factor)) = .fin neg (raw * fone) ∧
      (neg = true → raw = 0) ∧ raw < 2 ^ l.width := by
  cases hq : fdiv (fsub (ofBits v) (ofBits l.offset)) (ofBits l.factor) with
  | nan =>
    rw [rawOf_of_nonfinite (hq ▸ nonfinite_nan)]
    exact iff_of_false nofun nofun
  | inf s =>
    rw [rawOf_of_nonfinite (hq ▸ nonfinite_inf s)]
    exact iff_of_false nofun nofun
  | fin s mag =>
    simp only [rawOf_of_fin hq, roundInt_fin, fin_integer_eq_iff, Option.ite_none_right_eq_some, Option.some.injEq]
    constructor
    · rintro ⟨hrange, rfl⟩
      exact ⟨s, ⟨rfl, rfl⟩, hrange⟩
    · rintro ⟨_, ⟨rfl, rfl⟩, hrange⟩
      exact ⟨hrange, rfl⟩

/-- R71: a raw value that is taken fits its field. -/
theorem rawOf_lt {raw : Nat} (h : rawOf ties v l = some raw) : raw < 2 ^ l.width := by
  obtain ⟨-, -, -, hlt⟩ := (rawOf_eq_some_iff raw).1 h
  exact hlt

end

/-- Settles O55: the layout's width is its `bit_length`. -/
theorem rawValueIsTheRoundedQuotient : Obligations.RawValueIsTheRoundedQuotient := fun _ _ _ raw =>
  rawOf_eq_some_iff raw

/-- Settles O56: the range is part of what `rawOf` answers. -/
theorem acceptedRawValueFitsItsField : Obligations.AcceptedRawValueFitsItsField := fun _ _ _ _ h => rawOf_lt h

/-! ## Special factors and offsets (R73) -/

section
variable {ties : TieRule} {v : F64} {l : SignalLayout}

/-- ENCODE takes no value that is not a number. -/
theorem rawOf_of_nonfinite_fsub (h : Nonfinite (fsub (ofBits v) (ofBits l.offset))) : rawOf ties v l = none :=
  rawOf_of_nonfinite (nonfinite_fdiv h _)

theorem rawOf_of_factor_zero {neg : Bool} (h : ofBits l.factor = .fin neg 0) : rawOf ties v l = none :=
  rawOf_of_nonfinite (h ▸ nonfinite_fdiv_zero _ neg)

theorem rawOf_of_nan (h : ofBits l.factor = .nan ∨ ofBits l.offset = .nan) : rawOf ties v l = none := by
  apply rawOf_of_nonfinite
  obtain h | h := h
  · rw [h, fdiv_nan]
    exact nonfinite_nan
  · rw [h, fsub_nan, nan_fdiv]
    exact nonfinite_nan

/-- A number over an infinity is a zero. -/
theorem rawOf_of_factor_inf {neg neg' : Bool} {mag : Nat} (h : ofBits l.factor = .inf neg)
    (hdiff : fsub (ofBits v) (ofBits l.offset) = .fin neg' mag) : rawOf ties v l = some 0 := by
  have hquot : fdiv (fsub (ofBits v) (ofBits l.offset)) (ofBits l.factor) = .fin (neg' ^^ neg) 0 := by rw [hdiff, h, fdiv]
  have hround : nearest ties 0 fone = 0 := by simpa only [Nat.zero_mul] using nearest_exact ties 0 fone fone_pos
  rw [rawOf_of_fin hquot, hround, if_pos ⟨fun _ => rfl, Nat.two_pow_pos _⟩]

end

theorem phys_of_nan (raw : Nat) {l : SignalLayout} (h : ofBits l.factor = .nan ∨ ofBits l.offset = .nan) :
    phys raw l = .nan := by
  obtain h | h := h
  · rw [phys, h, fmul_nan, nan_fadd]
  · rw [phys, h, fadd_nan]

/-- Raw 0 times an infinity. -/
theorem phys_zero_of_factor_inf {l : SignalLayout} {neg : Bool} (h : ofBits l.factor = .inf neg) :
    phys 0 l = .nan := by
  have hzero : u2f 0 = .fin false 0 := by
    rw [u2f, Nat.zero_mul, roundQuot_one_of_grid false grid_zero]
  rw [phys, hzero, h, fmul, if_pos rfl, nan_fadd]

section
variable {raw : Nat} {l : SignalLayout} {neg : Bool} (hraw : raw < 2 ^ 64)
include hraw

/-- A zero factor leaves a zero to add to the offset. -/
theorem phys_of_factor_zero (h : ofBits l.factor = .fin neg 0) :
    phys raw l = fadd (.fin neg 0) (ofBits l.offset) := by
  have hmul : fmul (u2f raw) (.fin neg 0) = .fin neg 0 := by
    have := roundQuot_of_grid neg grid_zero fone_pos
    rw [Nat.zero_mul] at this
    rw [u2f_eq hraw, fmul, Nat.mul_zero, Bool.false_xor, this]
  rw [phys, h, hmul]

/-- An infinite factor leaves an infinity to add to the offset. -/
theorem phys_of_factor_inf (h : ofBits l.factor = .inf neg) (hpos : 0 < raw) :
    phys raw l = fadd (.inf neg) (ofBits l.offset) := by
  have hmag : 0 < roundedMag (raw * fone) 1 := roundedMag_pos Nat.one_pos (Nat.mul_pos hpos fone_pos)
  rw [phys, h, u2f_eq hraw, fmul, if_neg hmag.ne', Bool.false_xor]

end

/-- A zero added to an f64 is that f64, but for the sign of a zero. -/
theorem zero_fadd_fin (s t : Bool) {mag : Nat} (h : Grid mag) :
    ∃ neg, (0 < mag → neg = t) ∧ fadd (.fin s 0) (.fin t mag) = .fin neg mag := by
  obtain ⟨hne, heq⟩ := fadd_fin_fin s t 0 mag
  rw [(signed_eq_zero_iff s 0).2 rfl, zero_add] at hne heq
  rcases Nat.eq_zero_or_pos mag with rfl | hpos
  · exact ⟨s && t, fun h0 => absurd h0 (Nat.lt_irrefl 0), heq ((signed_eq_zero_iff t 0).2 rfl)⟩
  · have hsigned : signed t mag ≠ 0 := (signed_eq_zero_iff t mag).not.2 hpos.ne'
    exact ⟨t, fun _ => rfl, by rw [hne hsigned, roundQuot_signed hsigned, roundQuot_one_of_grid t h]⟩

/-- Settles O57: a special factor or offset makes the quotient no number, or a zero, and the product a NaN, a zero or an
infinity. -/
theorem specialFactorsBehaveAsStated : Obligations.SpecialFactorsBehaveAsStated := by
  intro ties v l raw hraw
  refine ⟨?_, fun h => ⟨rawOf_of_nan h, phys_of_nan raw h⟩, fun hv => ?_, fun neg hv => ?_, fun neg hf => ?_⟩
  · rintro ⟨neg, hf⟩
    refine ⟨rawOf_of_factor_zero hf, fun neg' mag ho => ?_, fun neg' ho => ?_⟩
    · obtain ⟨hmag, -, -⟩ := ofBits_fin ho
      rw [phys_of_factor_zero hraw hf, ho]
      exact zero_fadd_fin neg neg' hmag
    · rw [phys_of_factor_zero hraw hf, ho, fadd]
  · exact rawOf_of_nonfinite_fsub (nonfinite_fsub (hv ▸ nonfinite_nan) _)
  · exact rawOf_of_nonfinite_fsub (nonfinite_fsub (hv ▸ nonfinite_inf neg) _)
  · refine ⟨fun _ _ hdiff => rawOf_of_factor_inf hf hdiff, fun hdiff => rawOf_of_nonfinite_fsub hdiff,
      phys_zero_of_factor_inf hf, fun hpos => ?_⟩
    rw [phys_of_factor_inf hraw hf hpos]
    refine ⟨fun neg' mag ho => ?_, fun ho => ?_, fun ho => ?_⟩
    · rw [ho, fadd]
    · rw [ho, fadd, if_pos rfl]
    · rw [ho, fadd, if_neg (by cases neg <;> decide)]

end Sys2Proof.Proofs

/-! The Frame Codec: what DECODE answers, what ENCODE answers, and that the one reads what the other wrote
(R60 to R65). -/

namespace Sys2Proof.Proofs

open Machine Safety

/-! ## DECODE (R60) -/

/-- Settles O43: the flag is no operand of any function DECODE calls. -/
theorem decodeDoesNotReadExtended : Obligations.DecodeDoesNotReadExtended := fun _ _ _ => rfl

theorem all_fitsIn_iff (n : Nat) (ls : List SignalLayout) :
    ls.all (SignalLayout.fitsIn n) = true ↔ ∀ l ∈ ls, l.start + l.width ≤ 8 * n := by
  simp only [List.all_eq_true, fitsIn_iff]

section
variable {s : State} {f : RawFrame} (hs : s.valid = true) (hf : f.length ≤ 8)
include hs hf

theorem exec_decode_of_none (hl : lookup s.desc f.id = none) :
    exec (.decode f) s = .next (s.respond (.error .unknownFrameId)) := by
  rw [exec_decode_of_valid s f hs hf, hl]
  rfl

variable {e : Entry} (hl : lookup s.desc f.id = some e)
include hl

theorem exec_decode_of_truncated (h : ¬ ∀ l ∈ e.signals, l.start + l.width ≤ 8 * f.length) :
    exec (.decode f) s = .next (s.respond (.error .truncatedPayload)) := by
  rw [exec_decode_of_valid s f hs hf, hl]
  exact if_neg ((all_fitsIn_iff f.length e.signals).not.2 h)

theorem exec_decode_of_fits (h : ∀ l ∈ e.signals, l.start + l.width ≤ 8 * f.length) :
    exec (.decode f) s
      = .next ((s.respond (.decoded (decodeSignals f.payload e.signals s.draws))).draw e.signals.length) := by
  rw [exec_decode_of_valid s f hs hf, hl]
  exact if_pos ((all_fitsIn_iff f.length e.signals).2 h)

end

/-- The decoded signal at the position of a layout. -/
theorem getElem_decodeSignals_of_getElem? (p : List Byte) {ls : List SignalLayout} (k : Nat) {i : Nat} {l : SignalLayout}
    (h : i < (decodeSignals p ls k).length) (hl : ls[i]? = some l) :
    (decodeSignals p ls k)[i] = decodeSignal p l (k + i) := by
  obtain ⟨hi, rfl⟩ := List.getElem?_eq_some_iff.1 hl
  exact getElem_decodeSignals p ls k i h hi

theorem rawField_lt (p : List Byte) (l : SignalLayout) : rawField p l < 2 ^ l.width := extractField_lt ..

/-- A raw value of at most 64 bits is carried whole. -/
theorem toNat_decodeSignal_raw (p : List Byte) {l : SignalLayout} (k : Nat) (h : l.width ≤ 64) :
    (decodeSignal p l k).raw.toNat = rawField p l := by
  rw [decodeSignal, BitVec.toNat_ofNat,
    Nat.mod_eq_of_lt ((rawField_lt p l).trans_le (Nat.pow_le_pow_right (by decide) h))]

/-- The pattern shown has the value of R62, any NaN pattern standing for a NaN. -/
theorem ofBits_decodeSignal_physical (p : List Byte) (l : SignalLayout) (k : Nat) :
    ofBits (decodeSignal p l k).physical = fadd (fmul (u2f (rawField p l)) (ofBits l.factor)) (ofBits l.offset) := by
  simp only [decodeSignal, phys, fadd_rep]

/-- Every signal of the table of a block has at most 64 bits (R14). -/
theorem width_le_of_lookup {s : State} {id : Word} {e : Entry} (hs : s.valid = true) (hl : lookup s.desc id = some e)
    {l : SignalLayout} (hmem : l ∈ e.signals) : l.width ≤ 64 := by
  obtain ⟨-, hok, -⟩ := e.ok_iff.1 (entry_ok_of_lookup hs hl)
  obtain ⟨-, hwidth, -⟩ := (l.ok_iff _).1 (hok l hmem)
  exact hwidth

/-- Settles O42: the signals all lie inside the bytes received or one does not, and each is decoded on its own. -/
theorem decodeResult : Obligations.DecodeResult := by
  intro s f hs hf
  refine ⟨exec_decode_of_none hs hf, fun e hl => ⟨?_, fun hfits => ?_⟩⟩
  · rintro ⟨l, hmem, hpast⟩
    exact exec_decode_of_truncated hs hf hl fun hfits => Nat.not_le.2 hpast (hfits l hmem)
  · refine ⟨decodeSignals f.payload e.signals s.draws, ⟨_, exec_decode_of_fits hs hf hl hfits, rfl, rfl, rfl, rfl⟩,
      length_decodeSignals .., fun i hi l hlayout => ?_⟩
    have hwidth := width_le_of_lookup hs hl (List.mem_of_getElem? hlayout)
    rw [getElem_decodeSignals_of_getElem? f.payload s.draws hi hlayout, toNat_decodeSignal_raw _ _ hwidth]
    exact ⟨extractField_eq .., rfl, ofBits_decodeSignal_physical ..⟩

/-! ## ENCODE (R61) -/

theorem rawIs_iff (v : F64) (l : SignalLayout) (raw : Nat) : RawIs v l raw ↔ rawOf .halfEven v l = some raw :=
  (rawOf_eq_some_iff raw).symm

section
variable {ties : TieRule} {e : Entry} {k : Byte} {v : F64} (rest : List (Byte × F64)) (p : List Byte)

theorem encodePairs_of_unknown (h : e.signals.length ≤ k.toNat) :
    encodePairs ties e ((k, v) :: rest) p = .error .unknownSignal := by
  rw [encodePairs, List.getElem?_eq_none h]

variable {l : SignalLayout} (hl : e.signals[k.toNat]? = some l)
include hl

theorem encodePairs_of_out_of_range (h : rawOf ties v l = none) :
    encodePairs ties e ((k, v) :: rest) p = .error .valueOutOfRange := by
  simp only [encodePairs, hl, h]

theorem encodePairs_of_some {raw : Nat} (h : rawOf ties v l = some raw) :
    encodePairs ties e ((k, v) :: rest) p
      = encodePairs ties e rest (insertField l.byteOrder p l.start l.width raw) := by
  simp only [encodePairs, hl, h]

end

/-- The raw values of pairs, each inserted in turn. -/
def insertAll (done : List (SignalLayout × Nat)) (p : List Byte) : List Byte :=
  done.foldl (fun q lr => insertField lr.1.byteOrder q lr.1.startBit.toNat lr.1.bitLength.toNat lr.2) p

/-- Good pairs write their raw values, and what follows them decides. -/
theorem encodePairs_good_append {e : Entry} {good : List (Byte × F64)} {done : List (SignalLayout × Nat)}
    (h : List.Forall₂ (PairGives e) good done) (rest : List (Byte × F64)) (p : List Byte) :
    encodePairs .halfEven e (good ++ rest) p = encodePairs .halfEven e rest (insertAll done p) := by
  induction h generalizing p with
  | nil => rfl
  | cons hgives _ ih =>
    obtain ⟨hl, hraw⟩ := hgives
    exact (encodePairs_of_some _ p hl ((rawIs_iff ..).1 hraw)).trans (ih _)

section
variable {s : State} {id : Word} {ext : Bool} {vs : List (Byte × F64)} (hs : s.valid = true) (hvs : vs.length ≤ 255)
include hs hvs

theorem exec_encode_of_none (hl : lookup s.desc id = none) :
    exec (.encode id ext vs) s = .next (s.respond (.error .unknownFrameId)) := by
  rw [exec, execEncode, obey_of_valid hs ((wellFormed_encode_iff id ext vs).2 hvs), hl]
  rfl

variable {e : Entry} (hl : lookup s.desc id = some e)
include hl

theorem exec_encode_of_error {rc : ResultCode}
    (h : encodePairs .halfEven e vs (List.replicate e.dlen 0#8) = .error rc) :
    exec (.encode id ext vs) s = .next (s.respond (.error rc)) := by
  simp only [exec, execEncode, obey_of_valid hs ((wellFormed_encode_iff id ext vs).2 hvs), hl, Config.roundTies, h, raise]

theorem exec_encode_of_ok {p : List Byte} (h : encodePairs .halfEven e vs (List.replicate e.dlen 0#8) = .ok p) :
    exec (.encode id ext vs) s = .next (s.respond (.frame ⟨id, ext, p⟩)) := by
  simp only [exec, execEncode, obey_of_valid hs ((wellFormed_encode_iff id ext vs).2 hvs), hl, Config.roundTies, h]

end

/-- Settles O44: good pairs are written, so the first other pair, or their end, decides. -/
theorem encodeResult : Obligations.EncodeResult := by
  intro s id ext vs hs hvs
  refine ⟨exec_encode_of_none hs hvs, fun e hl => ⟨?_, fun done hgood => exec_encode_of_ok hs hvs hl ?_⟩⟩
  · rintro good ⟨k, v⟩ after done rfl hgood
    refine ⟨fun hunknown => exec_encode_of_error hs hvs hl ?_, fun l hlayout hraw => exec_encode_of_error hs hvs hl ?_⟩
    · rw [encodePairs_good_append hgood]
      exact encodePairs_of_unknown after _ hunknown
    · rw [encodePairs_good_append hgood]
      refine encodePairs_of_out_of_range after _ hlayout (Option.eq_none_iff_forall_ne_some.2 fun raw h => ?_)
      exact hraw raw ((rawIs_iff ..).2 h)
  · have := encodePairs_good_append hgood [] (List.replicate e.dlen 0#8)
    rwa [List.append_nil, encodePairs] at this

/-! ## DECODE of what ENCODE wrote (R65) -/

section
variable {ties : TieRule} {e : Entry}

/-- A pair that is accepted is written, and the pairs after it are examined. -/
theorem encodePairs_cons_ok {k : Byte} {v : F64} {rest : List (Byte × F64)} {p q : List Byte}
    (h : encodePairs ties e ((k, v) :: rest) p = .ok q) :
    ∃ l raw, e.signals[k.toNat]? = some l ∧ rawOf ties v l = some raw ∧
      encodePairs ties e rest (insertField l.byteOrder p l.start l.width raw) = .ok q := by
  rw [encodePairs] at h
  split at h
  · cases h
  · next l hl =>
    split at h
    · cases h
    · next raw hraw => exact ⟨l, raw, hl, hraw, h⟩

theorem encodePairs_append_ok {before after : List (Byte × F64)} {p q : List Byte}
    (h : encodePairs ties e (before ++ after) p = .ok q) :
    ∃ m, encodePairs ties e before p = .ok m ∧ encodePairs ties e after m = .ok q := by
  induction before generalizing p with
  | nil => exact ⟨p, rfl, h⟩
  | cons kv before ih =>
    obtain ⟨l, raw, hl, hraw, hrest⟩ := encodePairs_cons_ok h
    obtain ⟨m, hm, hafter⟩ := ih hrest
    exact ⟨m, (encodePairs_of_some before p hl hraw).trans hm, hafter⟩

/-- ENCODE keeps the declared length. -/
theorem length_of_encodePairs {vs : List (Byte × F64)} {p q : List Byte} (h : encodePairs ties e vs p = .ok q) :
    q.length = p.length := by
  induction vs generalizing p with
  | nil => exact congrArg List.length (Except.ok.inj h).symm
  | cons kv vs ih =>
    obtain ⟨l, raw, -, -, hrest⟩ := encodePairs_cons_ok h
    rw [ih hrest, length_insertField]

variable (he : e.ok = true)
include he

theorem fits_of_entry_ok {l : SignalLayout} (h : l ∈ e.signals) : l.start + l.width ≤ 8 * e.dlen := by
  obtain ⟨-, hok, -⟩ := e.ok_iff.1 he
  obtain ⟨-, -, hend⟩ := (l.ok_iff _).1 (hok l h)
  exact hend

/-- Signals at two positions occupy no payload bit together (R14). -/
theorem disjoint_of_entry_ok {i j : Nat} {a b : SignalLayout} (ha : e.signals[i]? = some a) (hb : e.signals[j]? = some b)
    (hne : i ≠ j) : ∀ x ∈ a.occupies e.dlen, x ∉ b.occupies e.dlen := by
  obtain ⟨-, -, hdisjoint⟩ := e.ok_iff.1 he
  obtain ⟨hi, rfl⟩ := List.getElem?_eq_some_iff.1 ha
  obtain ⟨hj, rfl⟩ := List.getElem?_eq_some_iff.1 hb
  exact (pairwise_iff_getElem_ne (fun _ _ h x hy hx => h x hx hy) e.signals).1 hdisjoint i j hi hj hne

/-- Pairs that do not name a signal leave its raw value. -/
theorem rawField_of_unnamed {vs : List (Byte × F64)} {p q : List Byte} (hp : p.length = e.dlen)
    (h : encodePairs ties e vs p = .ok q) {j : Nat} {l : SignalLayout} (hl : e.signals[j]? = some l)
    (hunnamed : ∀ kv ∈ vs, kv.1 ≠ BitVec.ofNat 8 j) : rawField q l = rawField p l := by
  induction vs generalizing p with
  | nil => rw [Except.ok.inj h]
  | cons kv vs ih =>
    obtain ⟨k, v⟩ := kv
    obtain ⟨a, raw, ha, hraw, hrest⟩ := encodePairs_cons_ok h
    have hne : k.toNat ≠ j := by
      rintro rfl
      exact hunnamed _ List.mem_cons_self (BitVec.ofNat_toNat 8 k ▸ (BitVec.setWidth_eq k).symm)
    have hwritten : rawField (insertField a.byteOrder p a.start a.width raw) l = rawField p l :=
      rawField_insert_ne p a l raw (hp ▸ fits_of_entry_ok he (List.mem_of_getElem? ha))
        (hp ▸ fits_of_entry_ok he (List.mem_of_getElem? hl)) (rawOf_lt hraw)
        (hp ▸ disjoint_of_entry_ok he ha hl hne)
    rw [ih ((length_insertField ..).trans hp) hrest fun kv hkv => hunnamed kv (List.mem_cons_of_mem _ hkv), hwritten]

/-- The last pair that names a signal decides its raw value. -/
theorem rawField_of_last {before after : List (Byte × F64)} {j : Nat} {v : F64} {p q : List Byte}
    (hp : p.length = e.dlen) (h : encodePairs ties e (before ++ (BitVec.ofNat 8 j, v) :: after) p = .ok q)
    {l : SignalLayout} (hl : e.signals[j]? = some l) (hj : j < 2 ^ 8)
    (hunnamed : ∀ kv ∈ after, kv.1 ≠ BitVec.ofNat 8 j) : rawOf ties v l = some (rawField q l) := by
  obtain ⟨m, hbefore, hrest⟩ := encodePairs_append_ok h
  obtain ⟨a, raw, ha, hraw, hafter⟩ := encodePairs_cons_ok hrest
  rw [BitVec.toNat_ofNat, Nat.mod_eq_of_lt hj] at ha
  obtain rfl : l = a := Option.some.inj (hl.symm.trans ha)
  have hm : m.length = e.dlen := (length_of_encodePairs hbefore).trans hp
  rw [rawField_of_unnamed he ((length_insertField ..).trans hm) hafter hl hunnamed,
    rawField_insert_self m l raw (hm ▸ fits_of_entry_ok he (List.mem_of_getElem? hl))
      (rawOf_lt hraw), hraw]

end

/-- Settles O45: the last pair that names a signal writes its field, and no other pair touches it. -/
theorem decodeInvertsEncode : Obligations.DecodeInvertsEncode := by
  intro s id ext vs e p hs hvs hl hp
  have he := entry_ok_of_lookup hs hl
  have hzero : (List.replicate e.dlen 0#8).length = e.dlen := List.length_replicate
  have hlen : p.length = e.dlen := (length_of_encodePairs hp).trans hzero
  have hshort : p.length ≤ 8 := hlen ▸ (e.ok_iff.1 he).1
  have hfits : ∀ l ∈ e.signals, l.start + l.width ≤ 8 * p.length := fun l hmem => hlen ▸ fits_of_entry_ok he hmem
  refine ⟨exec_encode_of_ok hs hvs hl hp, decodeSignals p e.signals s.draws,
    ⟨_, exec_decode_of_fits (f := ⟨id, ext, p⟩) hs hshort hl hfits, rfl⟩, length_decodeSignals .., fun k hk l hlayout => ?_⟩
  have hwidth := width_le_of_lookup hs hl (List.mem_of_getElem? hlayout)
  rw [getElem_decodeSignals_of_getElem? p s.draws hk hlayout, toNat_decodeSignal_raw _ _ hwidth]
  refine ⟨?_, fun hunnamed => (rawField_of_unnamed he hzero hp hlayout hunnamed).trans (rawField_zero _ l)⟩
  rintro before v after rfl hunnamed
  have hk256 : k < 2 ^ 8 := by
    have hcount := length_signals_le he
    rw [length_decodeSignals] at hk
    omega
  exact (rawIs_iff ..).2 (rawField_of_last he hzero hp hlayout hk256 hunnamed)

end Sys2Proof.Proofs

/-! The CRC commands (R81, R82), and the CRC as a linear map that loses no register (R80 (a) to (d)). -/

namespace Sys2Proof.Proofs

open Machine Safety

/-! ## The register after a payload (R80) -/

/-- Settles O33: zero bytes leave the seed, so what follows them starts from it. -/
theorem leadingZeroBytesLeaveTheCrc : Obligations.LeadingZeroBytesLeaveTheCrc := by
  intro k p
  have hzeros : crc15 (List.replicate k 0#8) = Config.crcSeed := foldl_crcByte_zeros k
  refine ⟨hzeros, ?_⟩
  rw [crc15, List.foldl_append, ← crc15, hzeros, ← crc15]

/-- Bytes of the same length are taken linearly, from any two registers. -/
theorem foldl_crcByte_xor (a b : List Byte) (h : a.length = b.length) (x y : BitVec 15) :
    (List.zipWith (· ^^^ ·) a b).foldl crcByte (x ^^^ y) = a.foldl crcByte x ^^^ b.foldl crcByte y := by
  induction a generalizing b x y with
  | nil =>
    obtain rfl := List.length_eq_zero_iff.1 h.symm
    rfl
  | cons u a ih =>
    obtain ⟨v, b, rfl⟩ := List.exists_cons_of_length_eq_add_one h.symm
    rw [List.zipWith_cons_cons, List.foldl_cons, crcByte_xor, ih b (Nat.succ.inj h), List.foldl_cons, List.foldl_cons]

/-- Settles O34: the seed is the exclusive or of two seeds. -/
theorem crcIsLinear : Obligations.CrcIsLinear := fun a b h => foldl_crcByte_xor a b h Config.crcSeed Config.crcSeed

/-- Folding functions each of which keeps registers apart keeps them apart. -/
theorem foldl_injective {α β : Type} {f : β → α → β} (hf : ∀ a, Function.Injective (f · a)) (as : List α) :
    Function.Injective fun r => as.foldl f r := by
  induction as with
  | nil => exact Function.injective_id
  | cons a as ih => exact ih.comp (hf a)

/-- One input bit keeps two registers apart: the step of their difference is not 0. -/
theorem crcStep_injective (b : Bool) : Function.Injective (crcStep · b) := by
  intro r s h
  have hdiff : crcStep (r ^^^ s) (b ^^ b) = 0#15 := by
    rw [crcStep_xor, show crcStep r b = crcStep s b from h, BitVec.xor_self]
  rw [Bool.xor_self] at hdiff
  exact BitVec.xor_eq_zero_iff.1 (eq_zero_of_crcStep _ hdiff)

/-- So does a byte. -/
theorem crcByte_injective (x : Byte) : Function.Injective (crcByte · x) :=
  foldl_injective crcStep_injective (bitsMsbFirst x)

/-- Inverting one bit of a byte changes the register after it. -/
theorem crcByte_xor_twoPow_ne (r : BitVec 15) (x : Byte) {j : Nat} (hj : j < 8) :
    crcByte r (x ^^^ BitVec.twoPow 8 j) ≠ crcByte r x := by
  have hbit : ∀ j < 8, crcByte 0#15 (BitVec.twoPow 8 j) ≠ 0#15 := by decide
  have hxor := crcByte_xor x (BitVec.twoPow 8 j) r 0#15
  rw [BitVec.xor_zero] at hxor
  rw [hxor]
  simpa using hbit j hj

/-- Settles O35: the registers differ after the byte that differs, and equal bytes keep them apart. -/
theorem crcDetectsEverySingleBitDifference : Obligations.CrcDetectsEverySingleBitDifference := by
  intro p i j hi hj h
  have hp : p = p.take i ++ p[i] :: p.drop (i + 1) := by simp
  rw [List.set_eq_take_append_cons_drop, if_pos hi] at h
  conv_rhs at h => rw [hp]
  rw [crc15, crc15, List.foldl_append, List.foldl_append, List.foldl_cons, List.foldl_cons] at h
  exact crcByte_xor_twoPow_ne _ _ hj (foldl_injective crcByte_injective _ h)

/-! ## The two commands -/

/-- R51: a result of code `Ok` is the word of its low bits. -/
theorem okHeader_eq_ofNat {z n : Nat} (hw : 8 + z + n = 32) (x : BitVec n) :
    (ResultCode.ok.code ++ 0#z ++ x).cast hw = BitVec.ofNat 32 x.toNat := by
  apply BitVec.eq_of_toNat_eq
  rw [BitVec.toNat_cast, toNat_okHeader, BitVec.toNat_ofNat, Nat.mod_eq_of_lt]
  exact x.isLt.trans_le (Nat.pow_le_pow_right (by decide) (by omega))

theorem crc_words (c : BitVec 15) : (Response.crc c).words = [BitVec.ofNat 32 c.toNat] :=
  congrArg (fun w => [w]) (okHeader_eq_ofNat rfl c)

theorem crcClass_words (c : CrcClass) : (Response.crcClass c).words = [BitVec.ofNat 32 c.code.toNat] :=
  congrArg (fun w => [w]) (okHeader_eq_ofNat rfl c.code)

/-- Settles O31: the operands are legal, and the body responds the CRC. -/
theorem crcComputeResult : Obligations.CrcComputeResult := by
  intro s p hs hp
  rw [exec, execCrcCompute, obey_of_valid hs ((wellFormed_crcCompute_iff p).2 hp), State.respond, crc_words]

/-- Settles O32: the classes in the order of R82; payloads of one length with equal bytes are equal. -/
theorem crcClassifyResult : Obligations.CrcClassifyResult := by
  intro s rp rcrc ep hs hrp hep
  have hw := (wellFormed_crcClassify_iff rp rcrc ep).2 ⟨hrp, hep⟩
  refine ⟨(classify rp rcrc ep).code.toNat, ?_, fun hcrc => ?_, fun hcrc hdiff => ?_, fun hcrc hlen hsame => ?_⟩
  · rw [exec, execCrcClassify, obey_of_valid hs hw, State.respond, crcClass_words]
  · rw [classify, if_pos hcrc]
    rfl
  · have hne : rp ≠ ep := by
      rintro rfl
      simp at hdiff
    rw [classify, if_neg hcrc, if_pos hne]
    rfl
  · have heq : rp = ep := List.ext_getElem hlen fun i hi hi' => by simpa [hi, hi'] using hsame i hi
    rw [classify, if_neg hcrc, if_neg (not_not.2 heq)]
    rfl

end Sys2Proof.Proofs

/-! The CRC is the remainder by the generator polynomial (R80). -/

namespace Sys2Proof.Proofs

open Machine Safety Polynomial

/-! ## Polynomials given by their bits -/

theorem bitsPoly_true : bitsPoly [true] = 1 := by simp [bitsPoly]
theorem bitsPoly_false : bitsPoly [false] = 0 := by simp [bitsPoly]

theorem bitsPoly_concat (bs : List Bool) (b : Bool) : bitsPoly (bs ++ [b]) = bitsPoly bs * X + bitsPoly [b] := by
  simp [bitsPoly]

theorem bitsPoly_cons (b : Bool) (bs : List Bool) :
    bitsPoly (b :: bs) = bitsPoly [b] * X ^ bs.length + bitsPoly bs := by
  induction bs using List.reverseRecOn with
  | nil => simp [bitsPoly]
  | append_singleton bs c ih =>
    rw [← List.cons_append, bitsPoly_concat, ih, bitsPoly_concat, List.length_append, List.length_singleton]
    ring

/-- Over GF(2) the exclusive or of two bits is their sum. -/
theorem bitsPoly_xor (b c : Bool) : bitsPoly [b ^^ c] = bitsPoly [b] + bitsPoly [c] := by
  cases b <;> cases c <;> simp [bitsPoly_true, bitsPoly_false, CharTwo.add_self_eq_zero]

theorem bitsPoly_map_xor (f g : Nat → Bool) (js : List Nat) :
    bitsPoly (js.map fun j => f j ^^ g j) = bitsPoly (js.map f) + bitsPoly (js.map g) := by
  induction js with
  | nil => simp [bitsPoly]
  | cons j js ih =>
    rw [List.map_cons, List.map_cons, List.map_cons, bitsPoly_cons, bitsPoly_cons (f j), bitsPoly_cons (g j), ih,
      bitsPoly_xor, List.length_map, List.length_map, List.length_map]
    ring

/-! ## The register as a polynomial -/

/-- The polynomial of the CRC register, its top bit the highest power, as `CrcIsThePolynomialRemainder` writes it. -/
noncomputable def regPoly (r : BitVec 15) : Polynomial (ZMod 2) :=
  bitsPoly ((List.range 15).map fun j => r.getLsbD (14 - j))

theorem regPoly_xor (r s : BitVec 15) : regPoly (r ^^^ s) = regPoly r + regPoly s := by
  simp only [regPoly, BitVec.getLsbD_xor]
  exact bitsPoly_map_xor _ _ _

/-- `CRC_POLY` is the generator without its `x^15` term. -/
theorem regPoly_crcPoly : regPoly Config.crcPoly = generator + X ^ 15 := by
  have hbits : (List.range 15).map (fun j => Config.crcPoly.getLsbD (14 - j)) =
      [true, false, false, false, true, false, true, true, false, false, true, true, false, false, true] := by decide
  rw [regPoly, hbits, generator]
  simp only [bitsPoly, List.foldl_cons, List.foldl_nil, if_true, if_false, Bool.false_eq_true]
  have hX := CharTwo.add_self_eq_zero (X ^ 15 : Polynomial (ZMod 2))
  linear_combination -hX

/-- A shift multiplies by `x`, and the top bit leaves the register. -/
theorem regPoly_shiftLeft_one (r : BitVec 15) :
    regPoly (r <<< 1) = regPoly r * X + bitsPoly [r.getLsbD 14] * X ^ 15 := by
  have hconcat : (List.range 15).map (fun j => (r <<< 1).getLsbD (14 - j))
      = (List.range 14).map (fun j => r.getLsbD (13 - j)) ++ [false] := by
    simp [List.range_succ]
  have hcons : (List.range 15).map (fun j => r.getLsbD (14 - j))
      = r.getLsbD 14 :: (List.range 14).map (fun j => r.getLsbD (13 - j)) := rfl
  rw [regPoly, regPoly, hconcat, hcons, bitsPoly_concat, bitsPoly_false, bitsPoly_cons, List.length_map,
    List.length_range]
  have htop := CharTwo.add_self_eq_zero (bitsPoly [r.getLsbD 14] * X ^ 15)
  linear_combination -htop

/-- One step of the register: times `x`, plus the input at `x^15`, less the generator where the feedback bit is set. -/
theorem regPoly_crcStep (r : BitVec 15) (b : Bool) :
    regPoly (crcStep r b) = regPoly r * X + bitsPoly [b] * X ^ 15 + bitsPoly [b ^^ r.getLsbD 14] * generator := by
  have hstep : regPoly (crcStep r b) = regPoly (r <<< 1) + bitsPoly [b ^^ r.getLsbD 14] * (generator + X ^ 15) := by
    unfold crcStep
    cases b ^^ r.getLsbD 14
    · simp [bitsPoly_false]
    · simp [bitsPoly_true, regPoly_xor, regPoly_crcPoly]
  rw [hstep, regPoly_shiftLeft_one, bitsPoly_xor]
  have htop := CharTwo.add_self_eq_zero (bitsPoly [r.getLsbD 14] * X ^ 15)
  linear_combination htop

/-- After any number of input bits the generator divides their polynomial times `x^15` plus the register. -/
theorem generator_dvd_foldl_crcStep (bs : List Bool) :
    generator ∣ bitsPoly bs * X ^ 15 + regPoly (bs.foldl crcStep Config.crcSeed) := by
  induction bs using List.reverseRecOn with
  | nil =>
    have hseed : (List.range 15).map (fun j => Config.crcSeed.getLsbD (14 - j)) = List.replicate 15 false := by decide
    simp [regPoly, hseed, bitsPoly]
  | append_singleton bs b ih =>
    obtain ⟨q, hq⟩ := ih
    rw [List.foldl_append, List.foldl_cons, List.foldl_nil, bitsPoly_concat, regPoly_crcStep]
    refine ⟨q * X + bitsPoly [b ^^ (bs.foldl crcStep Config.crcSeed).getLsbD 14], ?_⟩
    have hb := CharTwo.add_self_eq_zero (bitsPoly [b] * X ^ 15)
    linear_combination X * hq + hb

/-- The bits the register takes are those of the statement, byte after byte. -/
theorem crc15_eq_foldl_crcStep (p : List Byte) :
    crc15 p = (p.flatMap fun b => (List.range 8).map fun j => b.getLsbD (7 - j)).foldl crcStep Config.crcSeed := by
  rw [List.foldl_flatMap]
  rfl

/-- Settles O30: the payload's bits, taken one at a time from the seed. -/
theorem crcIsThePolynomialRemainder : Obligations.CrcIsThePolynomialRemainder := by
  intro p
  rw [crc15_eq_foldl_crcStep]
  exact generator_dvd_foldl_crcStep _

end Sys2Proof.Proofs

/-! The node commands: what each answers, how a node enters BusOff and leaves it, and the event bits (R90 to R97, R116,
R117). -/

namespace Sys2Proof.Proofs

open Machine Safety

/-- Settles O21: the label is each state exactly in its band, and ErrorPassive in none. -/
theorem labelHasTheStatedThresholds : Obligations.LabelHasTheStatedThresholds := fun c =>
  ⟨(label_eq_errorActive_iff c).2, (label_eq_errorWarning_iff c).2, (label_eq_busOff_iff c).2, label_ne_errorPassive c⟩

/-! ## The registers of a block's node (R17) -/

theorem node_ok_of_valid {s : State} (hs : s.valid = true) (n : NodeIx) : (s.node n).ok = true := by
  obtain ⟨-, hok⟩ := s.valid_iff.1 hs
  exact hok n

theorem state_eq_busOff_iff_of_ok {r : NodeRegs} (hr : r.ok = true) : r.state = .busOff ↔ 255 < r.cnt.toNat := by
  obtain ⟨hstate, -⟩ := r.ok_iff.1 hr
  rw [hstate, label_eq_busOff_iff]

/-! ## The three node functions, case by case -/

@[simp] theorem noTransition_regs (rc : ResultCode) (r : NodeRegs) : (noTransition rc r).regs = r := rfl
@[simp] theorem noTransition_ev (rc : ResultCode) (r : NodeRegs) : (noTransition rc r).ev = false := rfl
@[simp] theorem noTransition_bo (rc : ResultCode) (r : NodeRegs) : (noTransition rc r).bo = false := rfl

section NodeFunctions

variable {r : NodeRegs} {k d : BitVec 16}

/-- R95. -/
theorem successNode_of_busOff (hb : r.state = .busOff) : successNode r = noTransition .ok r := if_pos hb

/-- R92, outside BusOff. -/
theorem successNode_of_ne_busOff (hr : r.ok = true) (hb : r.state ≠ .busOff) :
    ∃ r', successNode r = ⟨r', .ok, true, false⟩ ∧ r'.cnt.toNat = r.cnt.toNat - 1 ∧ r'.ok = true ∧
      r'.state ≠ .busOff := by
  have hcnt := toNat_success (NodeRegs.cnt_le_of_ok hr hb)
  have hok := successNode_ok hr
  rw [successNode, if_neg hb] at hok ⊢
  refine ⟨_, rfl, hcnt, hok, ?_⟩
  rw [Ne, state_eq_busOff_iff_of_ok hok, hcnt]
  have := NodeRegs.cnt_le_of_ok hr hb
  omega

/-- R94. -/
theorem failureNode_of_neg (hk : k.toInt < 0) : failureNode k r = noTransition .invalidIncrement r := if_pos hk

/-- R95. -/
theorem failureNode_of_busOff (hk : 0 ≤ k.toInt) (hb : r.state = .busOff) : failureNode k r = noTransition .ok r := by
  rw [failureNode, if_neg (Int.not_lt.2 hk), if_pos hb]

/-- R93: the increment is added as an integer, and `BO` says whether the sum is past 255. -/
theorem failureNode_of_ne_busOff (hr : r.ok = true) (hk : 0 ≤ k.toInt) (hb : r.state ≠ .busOff) :
    ∃ r', failureNode k r = ⟨r', .ok, true, decide (255 < r'.cnt.toNat)⟩ ∧
      (r'.cnt.toNat : Int) = r.cnt.toNat + k.toInt ∧ r'.ok = true := by
  have hcnt := toNat_failure (NodeRegs.cnt_le_of_ok hr hb) (Int.not_lt.2 hk)
  have hok := failureNode_ok k hr
  have hsum : ((BitVec.ofNat 16 (r.cnt.toNat + k.toInt.toNat)).toNat : Int) = r.cnt.toNat + k.toInt := by
    rw [hcnt, Nat.cast_add, Int.toNat_of_nonneg hk]
  simp only [failureNode, if_neg (Int.not_lt.2 hk), if_neg hb, show Config.busOffLimit = 255 from rfl] at hok ⊢
  split_ifs at hok ⊢ with hc
  · exact ⟨_, by rw [hcnt, decide_eq_true hc], hsum, hok⟩
  · exact ⟨_, by rw [hcnt, decide_eq_false hc], hsum, hok⟩

/-- R96, outside BusOff. -/
theorem tickNode_of_ne_busOff (hb : r.state ≠ .busOff) : tickNode d k r = noTransition .ok r := if_pos hb

/-- R96, below the delay. -/
theorem tickNode_of_lt (hk : k.toNat < d.toNat) : tickNode d k r = noTransition .ok r := by
  rw [tickNode, if_neg (Nat.not_le.2 hk), ite_self]

/-- R96: recovery. -/
theorem tickNode_of_le (hb : r.state = .busOff) (hk : d.toNat ≤ k.toNat) :
    tickNode d k r = ⟨.reset, .ok, true, false⟩ := by
  rw [tickNode, if_neg (not_not.2 hb), if_pos hk]
  rfl

end NodeFunctions

/-! ## A node command is its node function -/

/-- The node function that a command addressed to node `n` applies (R91). -/
inductive NodeFunction (n : NodeIx) : Instr → (NodeRegs → NodeResult) → Prop where
  | success : NodeFunction n (.onSuccess n) successNode
  | failure (k : BitVec 16) : NodeFunction n (.onFailure n k) (failureNode k)
  | tick (k : BitVec 16) : NodeFunction n (.onBusOffTick n k) (tickNode Config.recoveryDelay k)

theorem exists_nodeFunction {n : NodeIx} {i : Instr} (hi : NodeCommand n i) : ∃ f, NodeFunction n i f := by
  cases hi with
  | success => exact ⟨_, .success⟩
  | failure k => exact ⟨_, .failure k⟩
  | tick k => exact ⟨_, .tick k⟩

section Exec

variable {n : NodeIx} {i : Instr} {f : NodeRegs → NodeResult} {s t : State}

theorem exec_nodeFunction (hf : NodeFunction n i f) : exec i s = onBlock s (finishNode n (f (s.node n)) s) := by
  cases hf <;> rfl

/-- A transition is written to the node and answered. -/
theorem exec_of_transition (hf : NodeFunction n i f) (hs : s.valid = true) {x : NodeResult} (hx : f (s.node n) = x) :
    exec i s = .next ((s.setNode n x.regs).respond (.node x.rc x.ev x.bo x.regs)) := by
  rw [exec_nodeFunction hf, onBlock_of_valid hs, hx, finishNode]

/-- Without a transition the command is its response. -/
theorem exec_of_noTransition (hf : NodeFunction n i f) (hs : s.valid = true) {rc : ResultCode}
    (hx : f (s.node n) = noTransition rc (s.node n)) :
    exec i s = .next (s.respond (.node rc false false (s.node n))) := by
  rw [exec_of_transition hf hs hx, noTransition, State.setNode_node]

/-- A node command that answers has run its function on its node. -/
theorem nodeFunction_next (hf : NodeFunction n i f) (h : exec i s = .next t) :
    (s.node n).ok = true ∧ t = (s.setNode n (f (s.node n)).regs).respond
      (.node (f (s.node n)).rc (f (s.node n)).ev (f (s.node n)).bo (f (s.node n)).regs) := by
  obtain ⟨hv, hbody⟩ := onBlock_next (exec_nodeFunction hf ▸ h)
  exact ⟨node_ok_of_valid hv n, finishNode_next hbody⟩

/-- R18, R21: a command that is not addressed to a node leaves it as it is. -/
theorem node_eq_of_not_nodeCommand (h : exec i s = .next t) (hi : ¬ NodeCommand n i) : t.node n = s.node n := by
  have other {m : NodeIx} (hm : NodeCommand m i) : t.node n = s.node n := by
    obtain ⟨hothers, -⟩ := nodeCommandWritesOnlyItsNode m i s t hm h
    exact hothers n fun e => hi (e ▸ hm)
  obtain ⟨-, hnode | hstateless⟩ := exec_next h
  · cases hnode with
    | success m => exact other .success
    | failure m k => exact other (.failure k)
    | tick m k => exact other (.tick k)
  · obtain ⟨hnodes, -⟩ := statelessEffect_frame hstateless
    exact node_congr hnodes n

/-- What a command that answers does to one node: its function, if it is addressed to the node, and else nothing. -/
theorem exec_node_cases (h : exec i s = .next t) (n : NodeIx) :
    (∃ f, NodeFunction n i f ∧ (s.node n).ok = true ∧ t.node n = (f (s.node n)).regs) ∨
      (¬ NodeCommand n i ∧ t.node n = s.node n) := by
  by_cases hi : NodeCommand n i
  · obtain ⟨f, hf⟩ := exists_nodeFunction hi
    obtain ⟨hok, rfl⟩ := nodeFunction_next hf h
    exact .inl ⟨f, hf, hok, s.node_setNode_self n _⟩
  · exact .inr ⟨hi, node_eq_of_not_nodeCommand h hi⟩

end Exec

/-- Settles O22: ON_SUCCESS is `successNode`, inert in BusOff and a transition outside. -/
theorem onSuccessResult : Obligations.OnSuccessResult := by
  intro s n hs
  refine ⟨fun hb => exec_of_noTransition .success hs (successNode_of_busOff hb), fun hb => ?_⟩
  have hok := node_ok_of_valid hs n
  obtain ⟨r, hx, hcnt, hr, hbr⟩ := successNode_of_ne_busOff hok hb
  obtain ⟨hstate, -⟩ := r.ok_iff.1 hr
  exact ⟨r, by rw [hcnt, Nat.zero_max], hcnt ▸ hstate, hbr, NodeRegs.recovering_of_ok hr hbr,
    exec_of_transition .success hs hx⟩

/-- Settles O23: ON_FAILURE is `failureNode`, and the registers it leaves are related as R17 says. -/
theorem onFailureResult : Obligations.OnFailureResult := by
  intro s n k hs
  refine ⟨fun hk => exec_of_noTransition (.failure k) hs (failureNode_of_neg hk),
    fun hk hb => exec_of_noTransition (.failure k) hs (failureNode_of_busOff hk hb), fun hk hb => ?_⟩
  obtain ⟨r, hx, hcnt, hr⟩ := failureNode_of_ne_busOff (node_ok_of_valid hs n) hk hb
  obtain ⟨hstate, hrec⟩ := r.ok_iff.1 hr
  have hbusOff := state_eq_busOff_iff_of_ok hr
  refine ⟨r, hcnt, fun hlt => ⟨hbusOff.2 hlt, hrec.2 (hbusOff.2 hlt)⟩, fun hle => ⟨hstate, ?_⟩,
    exec_of_transition (.failure k) hs hx⟩
  exact NodeRegs.recovering_of_ok hr fun hb' => Nat.not_lt.2 hle (hbusOff.1 hb')

/-- Settles O24: ON_BUS_OFF_TICK is `tickNode` with the delay 2. -/
theorem onBusOffTickResult : Obligations.OnBusOffTickResult := by
  intro s n k hs
  refine ⟨fun hb hk => exec_of_transition (.tick k) hs (tickNode_of_le hb hk), ?_⟩
  rintro (hb | hk)
  · exact exec_of_noTransition (.tick k) hs (tickNode_of_ne_busOff hb)
  · exact exec_of_noTransition (.tick k) hs (tickNode_of_lt hk)

/-! ## Into BusOff and out of it -/

section BusOff

variable {n : NodeIx} {i : Instr} {f : NodeRegs → NodeResult} {r : NodeRegs}

/-- R95, R97: in BusOff only a tick of at least the delay changes the node, to the registers of reset. -/
theorem nodeFunction_leaves_busOff (hf : NodeFunction n i f) (hb : r.state = .busOff) (hne : (f r).regs ≠ r) :
    (f r).regs = .reset ∧ ∃ k, i = .onBusOffTick n k ∧ Config.recoveryDelay.toNat ≤ k.toNat := by
  cases hf with
  | success => exact absurd (congrArg NodeResult.regs (successNode_of_busOff hb)) hne
  | failure k =>
    rcases lt_or_ge k.toInt 0 with hk | hk
    · exact absurd (congrArg NodeResult.regs (failureNode_of_neg hk)) hne
    · exact absurd (congrArg NodeResult.regs (failureNode_of_busOff hk hb)) hne
  | tick k =>
    rcases Nat.lt_or_ge k.toNat Config.recoveryDelay.toNat with hk | hk
    · exact absurd (congrArg NodeResult.regs (tickNode_of_lt hk)) hne
    · exact ⟨congrArg NodeResult.regs (tickNode_of_le hb hk), k, rfl, hk⟩

/-- R93 (c): outside BusOff, ON_FAILURE leads there exactly when the sum is past 255. -/
theorem failureNode_state_eq_busOff_iff (k : BitVec 16) (hr : r.ok = true) (hb : r.state ≠ .busOff) :
    (failureNode k r).regs.state = .busOff ↔ 0 ≤ k.toInt ∧ 255 < r.cnt.toNat + k.toInt := by
  rcases lt_or_ge k.toInt 0 with hk | hk
  · simp [failureNode_of_neg hk, hb, hk]
  · obtain ⟨r', hx, hcnt, hr'⟩ := failureNode_of_ne_busOff hr hk hb
    rw [hx, state_eq_busOff_iff_of_ok hr']
    omega

/-- R99 (a): outside BusOff, a node command leads there exactly when it is an ON_FAILURE that passes 255. -/
theorem nodeFunction_state_eq_busOff_iff (hf : NodeFunction n i f) (hr : r.ok = true) (hb : r.state ≠ .busOff) :
    (f r).regs.state = .busOff ↔
      ∃ k : BitVec 16, i = .onFailure n k ∧ 0 ≤ k.toInt ∧ 255 < r.cnt.toNat + k.toInt := by
  cases hf with
  | success =>
    obtain ⟨r', hx, -, -, hb'⟩ := successNode_of_ne_busOff hr hb
    simp [hx, hb']
  | failure k => simp [failureNode_state_eq_busOff_iff k hr hb]
  | tick k => simp [tickNode_of_ne_busOff hb, hb]

end BusOff

/-- Settles O27: of what a step can do, only a recovering tick and the reset input change a node in BusOff. -/
theorem onlyARecoveringTickLeavesBusOff : Obligations.OnlyARecoveringTickLeavesBusOff := by
  intro s t n h hb hne
  rw [show State.reset.node n = .reset from node_reset [] n]
  rcases step_next h with ⟨i, k, hd, he⟩ | ⟨e, k, -, -, rfl⟩ | ⟨hd, -, ⟨rest, hrest, rfl⟩ | ⟨-, rfl⟩⟩
  · obtain ⟨f, hf, -, ht⟩ | ⟨-, ht⟩ := exec_node_cases he n
    · obtain ⟨hreset, elapsed, rfl, hle⟩ := nodeFunction_leaves_busOff hf hb (ht ▸ hne)
      exact ⟨ht.trans hreset, .inl ⟨elapsed, k, hd, hle⟩⟩
    · exact absurd ht hne
  · exact absurd rfl hne
  · exact ⟨s.node_resetNodes n, .inr ⟨hd, rest, hrest⟩⟩
  · exact absurd rfl hne

/-- Settles O28: a command addressed to the node is its function there, and any other leaves the node. -/
theorem busOffIsEnteredExactlyPast255 : Obligations.BusOffIsEnteredExactlyPast255 := by
  intro i s t n h hb
  obtain ⟨f, hf, hok, ht⟩ | ⟨hi, ht⟩ := exec_node_cases h n
  · rw [ht]
    exact nodeFunction_state_eq_busOff_iff hf hok hb
  · rw [ht]
    refine iff_of_false hb ?_
    rintro ⟨k, rfl, -⟩
    exact hi (.failure k)

/-! ## The event bits -/

/-- `EV` stands in bit 23 of a node response (R51). -/
@[simp] theorem eventValid_node (rc : ResultCode) (ev bo : Bool) (r : NodeRegs) :
    eventValid (Response.node rc ev bo r).words = ev := by
  simp only [eventValid, Response.words, List.headD_cons, bit, BitVec.getLsbD_append]
  simp

/-- `BO` stands in bit 22 of a node response (R51). -/
@[simp] theorem busOffEntered_node (rc : ResultCode) (ev bo : Bool) (r : NodeRegs) :
    busOffEntered (Response.node rc ev bo r).words = bo := by
  simp only [busOffEntered, Response.words, List.headD_cons, bit, BitVec.getLsbD_append]
  simp

section Events

variable {n : NodeIx} {i : Instr} {f : NodeRegs → NodeResult} {r : NodeRegs}

theorem successNode_ev_iff (hr : r.ok = true) : (successNode r).ev = true ↔ r.state ≠ .busOff := by
  by_cases hb : r.state = .busOff
  · simp [successNode_of_busOff hb, hb]
  · obtain ⟨r', hx, -⟩ := successNode_of_ne_busOff hr hb
    simp [hx, hb]

theorem failureNode_ev_iff (k : BitVec 16) (hr : r.ok = true) :
    (failureNode k r).ev = true ↔ r.state ≠ .busOff ∧ 0 ≤ k.toInt := by
  rcases lt_or_ge k.toInt 0 with hk | hk
  · simp [failureNode_of_neg hk, hk]
  by_cases hb : r.state = .busOff
  · simp [failureNode_of_busOff hk hb, hb]
  · obtain ⟨r', hx, -⟩ := failureNode_of_ne_busOff hr hk hb
    simp [hx, hb, hk]

theorem tickNode_ev_iff (d k : BitVec 16) (r : NodeRegs) :
    (tickNode d k r).ev = true ↔ r.state = .busOff ∧ d.toNat ≤ k.toNat := by
  by_cases hb : r.state = .busOff
  · rcases Nat.lt_or_ge k.toNat d.toNat with hk | hk
    · simp [tickNode_of_lt hk, hk]
    · simp [tickNode_of_le hb hk, hb, hk]
  · simp [tickNode_of_ne_busOff hb, hb]

/-- R91, R116: `EV` reports a transition. -/
theorem nodeFunction_ev_iff (hf : NodeFunction n i f) (hr : r.ok = true) :
    (f r).ev = true ↔
      (r.state ≠ .busOff ∧ (i = .onSuccess n ∨ ∃ k : BitVec 16, i = .onFailure n k ∧ 0 ≤ k.toInt)) ∨
      (r.state = .busOff ∧ ∃ k : BitVec 16, i = .onBusOffTick n k ∧ Config.recoveryDelay.toNat ≤ k.toNat) := by
  cases hf with
  | success => simp [successNode_ev_iff hr]
  | failure k => simp [failureNode_ev_iff k hr]
  | tick k => simp [tickNode_ev_iff]

/-- No command that finds its node in BusOff reports that the node enters it. -/
theorem nodeFunction_bo_of_busOff (hf : NodeFunction n i f) (hb : r.state = .busOff) : (f r).bo = false := by
  cases hf with
  | success => rw [successNode_of_busOff hb, noTransition_bo]
  | failure k =>
    rcases lt_or_ge k.toInt 0 with hk | hk
    · rw [failureNode_of_neg hk, noTransition_bo]
    · rw [failureNode_of_busOff hk hb, noTransition_bo]
  | tick k =>
    rcases Nat.lt_or_ge k.toNat Config.recoveryDelay.toNat with hk | hk
    · rw [tickNode_of_lt hk, noTransition_bo]
    · rw [tickNode_of_le hb hk]

/-- Outside BusOff, `BO` says whether the node is in BusOff afterwards. -/
theorem nodeFunction_bo_of_ne_busOff (hf : NodeFunction n i f) (hr : r.ok = true) (hb : r.state ≠ .busOff) :
    (f r).bo = true ↔ (f r).regs.state = .busOff := by
  cases hf with
  | success =>
    obtain ⟨r', hx, -, -, hb'⟩ := successNode_of_ne_busOff hr hb
    simp [hx, hb']
  | failure k =>
    rcases lt_or_ge k.toInt 0 with hk | hk
    · simp [failureNode_of_neg hk, hb]
    · obtain ⟨r', hx, -, hr'⟩ := failureNode_of_ne_busOff hr hk hb
      rw [hx, state_eq_busOff_iff_of_ok hr', decide_eq_true_iff]
  | tick k => simp [tickNode_of_ne_busOff hb, hb]

/-- R91, R117: `BO` reports the entry into BusOff. -/
theorem nodeFunction_bo_iff (hf : NodeFunction n i f) (hr : r.ok = true) :
    (f r).bo = true ↔ r.state ≠ .busOff ∧ (f r).regs.state = .busOff := by
  by_cases hb : r.state = .busOff
  · simp [nodeFunction_bo_of_busOff hf hb, hb]
  · simp [nodeFunction_bo_of_ne_busOff hf hr hb, hb]

end Events

/-- Settles O29: the response carries the bits of the node function. -/
theorem eventBitsReportTransitions : Obligations.EventBitsReportTransitions := by
  intro n i s t hi h
  obtain ⟨f, hf⟩ := exists_nodeFunction hi
  obtain ⟨hok, rfl⟩ := nodeFunction_next hf h
  refine ⟨_, rfl, ?_, ?_⟩
  · rw [busOffEntered_node, State.node_respond, State.node_setNode_self]
    exact nodeFunction_bo_iff hf hok
  · rw [eventValid_node]
    exact nodeFunction_ev_iff hf hok

end Sys2Proof.Proofs

/-! Errors: the table that no block is constructed over, and the command that ends with an error (R110, R112, R115,
R132). -/

namespace Sys2Proof.Proofs

open Machine Safety

/-! ## Under a table that fails (R115, R132) -/

/-- Every command asks first whether the block exists. -/
theorem exec_eq_onBlock (i : Instr) (s : State) : ∃ body, exec i s = onBlock s body := by
  cases i <;> exact ⟨_, rfl⟩

section

variable {s : State}

theorem onBlock_of_table_fails (h : tableOk s.desc = false) (body : Result) :
    onBlock s body = .refused .configurationError :=
  if_neg (Bool.not_eq_true _ ▸ h)

theorem exec_of_table_fails (h : tableOk s.desc = false) (i : Instr) : exec i s = .refused .configurationError := by
  obtain ⟨body, hbody⟩ := exec_eq_onBlock i s
  rw [hbody, onBlock_of_table_fails h]

/-- Taking the words of a command leaves the table, so whatever stands on the stream is refused. -/
theorem step_of_table_fails (h : tableOk s.desc = false) : step s = .refused .configurationError := by
  cases hd : decode (leadingWords s.inputs) with
  | command i k => exact (step_of_command hd).trans (exec_of_table_fails (s := s.consume k) h i)
  | illegal e k => exact (step_of_illegal hd).trans (onBlock_of_table_fails (s := s.consume k) h _)
  | incomplete => exact (step_of_incomplete hd).trans (onBlock_of_table_fails h _)

end

section

variable {d : DescTable}

theorem construct_of_tableOk (h : tableOk d = true) : construct d = .ok { State.reset with desc := d } := if_pos h

theorem construct_of_table_fails (h : tableOk d = false) : construct d = .error .configurationError :=
  if_neg (Bool.not_eq_true _ ▸ h)

/-- Of a table with each key once, the check alone decides. -/
theorem tableOk_eq_decide_check (h : isMap d = true) : tableOk d = decide (checkDescriptor d = .ok) := by
  rw [tableOk, h, Bool.true_and]

end

/-- Settles O17: the check decides `tableOk`, on which construction, every command and every step turn. -/
theorem failingTableConstructsNothing : Obligations.FailingTableConstructsNothing := by
  intro d hmap
  have htable := tableOk_eq_decide_check hmap
  refine ⟨fun hcheck => ?_, fun hcheck => ?_⟩
  · have hfails : tableOk d = false := by simp [htable, hcheck]
    refine ⟨construct_of_table_fails hfails, ?_⟩
    rintro s rfl
    exact ⟨exec_of_table_fails hfails, step_of_table_fails hfails⟩
  · have hok : tableOk d = true := by simp [htable, hcheck]
    exact ⟨_, construct_of_tableOk hok, rfl, valid_reset hok, node_reset d⟩

/-! ## The words of an error (R50, R51) -/

/-- The result code a command answers with; the data responses are those of OK. -/
def resultCode : Response → ResultCode
  | .decoded _ => .ok
  | .frame _ => .ok
  | .crc _ => .ok
  | .crcClass _ => .ok
  | .node rc _ _ _ => rc
  | .error rc => rc

/-- R51: in every kind of response, `RC` is the top field of the first word. -/
theorem responseCode_words (r : Response) : responseCode r.words = (resultCode r).code := by
  cases r <;>
    simp only [responseCode, Response.words, resultCode, List.headD_cons, BitVec.extractLsb'_append_eq_of_le,
      Nat.reduceLeDiff, Nat.reduceSub, BitVec.extractLsb'_eq_self]

theorem responseCode_eq_zero_of_ok {r : Response} (h : resultCode r = .ok) : responseCode r.words = 0#8 := by
  rw [responseCode_words, h]
  rfl

theorem getLsbD_errorHeader (rc : ResultCode) {k : Nat} (hk : k < 24) :
    BitVec.getLsbD (rc.code ++ 0#24 : BitVec (8 + 24)) k = false := by
  rw [BitVec.getLsbD_append, if_pos hk, BitVec.getLsbD_zero]

theorem eventValid_error (rc : ResultCode) : eventValid (Response.error rc).words = false :=
  getLsbD_errorHeader rc (by decide)

theorem busOffEntered_error (rc : ResultCode) : busOffEntered (Response.error rc).words = false :=
  getLsbD_errorHeader rc (by decide)

/-- R112: an error without data is the word of its code in the top byte. -/
theorem error_words (rc : ResultCode) :
    (Response.error rc).words = [BitVec.ofNat 32 ((responseCode (Response.error rc).words).toNat * 2 ^ 24)] := by
  rw [responseCode_words]
  refine congrArg (fun w => [w]) (BitVec.eq_of_toNat_eq ?_)
  have hcode := rc.code.isLt
  rw [toNat_errorHeader, BitVec.toNat_ofNat, resultCode, toNat_resultCode, Nat.mod_eq_of_lt]
  rw [toNat_resultCode] at hcode
  omega

/-! ## How a command that answers ends (R110, R112) -/

/-- R94: a node function ends with OK, or with InvalidIncrement and no transition. -/
theorem nodeFunction_rc_cases {n : NodeIx} {i : Instr} {f : NodeRegs → NodeResult} {r : NodeRegs}
    (hf : NodeFunction n i f) (hr : r.ok = true) : (f r).rc = .ok ∨ f r = noTransition .invalidIncrement r := by
  cases hf with
  | success =>
    by_cases hb : r.state = .busOff
    · exact .inl (congrArg NodeResult.rc (successNode_of_busOff hb))
    · obtain ⟨r', hx, -⟩ := successNode_of_ne_busOff hr hb
      exact .inl (congrArg NodeResult.rc hx)
  | failure k =>
    rcases lt_or_ge k.toInt 0 with hk | hk
    · exact .inr (failureNode_of_neg hk)
    by_cases hb : r.state = .busOff
    · exact .inl (congrArg NodeResult.rc (failureNode_of_busOff hk hb))
    · obtain ⟨r', hx, -⟩ := failureNode_of_ne_busOff hr hk hb
      exact .inl (congrArg NodeResult.rc hx)
  | tick k =>
    rcases Nat.lt_or_ge k.toNat Config.recoveryDelay.toNat with hk | hk
    · exact .inl (congrArg NodeResult.rc (tickNode_of_lt hk))
    by_cases hb : r.state = .busOff
    · exact .inl (congrArg NodeResult.rc (tickNode_of_le hb hk))
    · exact .inl (congrArg NodeResult.rc (tickNode_of_ne_busOff hb))

theorem exists_nodeFunction_of_nodeEffect {i : Instr} {s t : State} (h : NodeEffect s i t) :
    ∃ n f, NodeFunction n i f := by
  cases h with
  | success n => exact ⟨n, _, .success⟩
  | failure n k => exact ⟨n, _, .failure k⟩
  | tick n k => exact ⟨n, _, .tick k⟩

/-- The ways a command that answers can end: with OK, with an error that is its response alone, or with
InvalidIncrement, which answers with the registers of a node and writes nothing. -/
theorem exec_ends {i : Instr} {s t : State} (h : exec i s = .next t) :
    (∃ r, t.responses = s.responses ++ [r.words] ∧ resultCode r = .ok) ∨
      (∃ rc, t = s.respond (.error rc)) ∨
      (∃ n, t = s.respond (.node .invalidIncrement false false (s.node n))) := by
  obtain ⟨-, hnode | hstateless⟩ := exec_next h
  · obtain ⟨n, f, hf⟩ := exists_nodeFunction_of_nodeEffect hnode
    obtain ⟨hok, rfl⟩ := nodeFunction_next hf h
    rcases nodeFunction_rc_cases hf hok with hrc | hx
    · exact .inl ⟨_, rfl, hrc⟩
    · refine .inr (.inr ⟨n, ?_⟩)
      rw [hx, noTransition, State.setNode_node]
  · cases hstateless with
    | error _ rc => exact .inr (.inl ⟨rc, rfl⟩)
    | decoded f sigs => exact .inl ⟨.decoded sigs, rfl, rfl⟩
    | framed id ext vs f => exact .inl ⟨.frame f, rfl, rfl⟩
    | crc p => exact .inl ⟨.crc (crc15 p), rfl, rfl⟩
    | crcClass r c e => exact .inl ⟨.crcClass (classify r c e), rfl, rfl⟩

/-- Settles O20: of the ways a command can end, both that are not OK are one response of one word. -/
theorem errorChangesNothing : Obligations.ErrorChangesNothing := by
  intro i s t h
  rcases exec_ends h with ⟨r, hresponses, hok⟩ | ⟨rc, rfl⟩ | ⟨n, rfl⟩
  · exact ⟨r.words, hresponses, fun hne => absurd (responseCode_eq_zero_of_ok hok) hne⟩
  · exact ⟨_, rfl, fun _ => ⟨rfl, rfl, rfl, rfl, rfl, eventValid_error rc, busOffEntered_error rc,
      fun _ => error_words rc⟩⟩
  · exact ⟨_, rfl, fun _ => ⟨rfl, rfl, rfl, rfl, rfl, eventValid_node .., busOffEntered_node ..,
      fun hne => absurd (responseCode_words _) hne⟩⟩

end Sys2Proof.Proofs

/-! The reset input (R130, R131): it re-creates every node and answers nothing. -/

namespace Sys2Proof.Proofs

open Machine

/-- R130: a reset before the next complete command takes place, and the words before it are lost. -/
theorem waitOrReset_of_reset {s : State} {rest : List HostInput} (hs : s.valid = true)
    (h : afterWords s.inputs = .reset :: rest) :
    waitOrReset s = .next { s.resetNodes with inputs := rest } := by
  rw [waitOrReset, onBlock_of_valid hs, h]

/-- R20, R130: what follows the reset on the stream has no part in the registers it leaves. -/
theorem node_resetNodes_inputs (s : State) (rest : List HostInput) (n : NodeIx) :
    State.node { s.resetNodes with inputs := rest } n = .reset :=
  s.node_resetNodes n

/-- Settles O11: the words before the reset read as incomplete, so the step is the reset, which writes the nodes and
the stream alone. -/
theorem resetInputRecreatesTheNodes : Obligations.ResetInputRecreatesTheNodes := by
  intro s rest hs hincomplete hreset
  have hstep : step s = .next { s.resetNodes with inputs := rest } := by
    rw [step_of_incomplete hincomplete, waitOrReset_of_reset hs hreset]
  exact ⟨_, hstep, node_resetNodes_inputs s rest, s.resetNodes_desc, rfl, s.resetNodes_responses, s.resetNodes_draws⟩

end Sys2Proof.Proofs
